-- ==== Sys2Proof/Word.lean ====
section
/-!
DEFINITION. The word of the crazyVM core, "one 32-bit unsigned integer" (00_scope.md R11, R15), its byte for line
input, and the narrowing `wrap32` of the spec's notation (00_scope.md R11).
-/

namespace Sys2Proof

/-- One 32-bit word, the unit of addressing of both memories (20_memory.md R41). -/
abbrev Word := BitVec 32

/-- One byte of a host's input line (45_syscall.md R188). -/
abbrev Byte := BitVec 8

/-- `wrap32(v) = v mod 2^32` for any integer `v` (00_scope.md R11). -/
def wrap32 (v : Int) : Word := BitVec.ofInt 32 v

end Sys2Proof
end

