-- ==== Sys2Proof/Syntax.lean ====
section
/-!
DEFINITION. The closed instruction set: the eight registers (10_state.md R20), the 25 mnemonics and their operand
shapes (30_encoding.md R63, R68), and `Instr`, the decoded form of a word ("Opcode", 00_scope.md R15).
-/

namespace Sys2Proof

/-- The eight addressable registers, in index order 0 to 7 (10_state.md R20).
The sentinel "Count" of R22 is no value of this type, since no word can name it. -/
inductive Reg where
  | sp | pc | flag | zero | a | b | c | d
deriving DecidableEq, Repr

/-- The 25 mnemonics in the source's table order (30_encoding.md R68). -/
inductive Mnemonic where
  | add | sub | mul | div | imm | push | pop | stackAdd | stackSub | stackMul | stackDiv | cmp
  | jmp | je | jne | jg | jge | jl | jle | jz | jnz | ret | call | fn | syscall
deriving DecidableEq, Repr

/-- All mnemonics, in table order. -/
def Mnemonic.all : List Mnemonic :=
  [.add, .sub, .mul, .div, .imm, .push, .pop, .stackAdd, .stackSub, .stackMul, .stackDiv, .cmp,
   .jmp, .je, .jne, .jg, .jge, .jl, .jle, .jz, .jnz, .ret, .call, .fn, .syscall]

/-- The six operand shapes (30_encoding.md R63). -/
inductive Shape where
  | n | r | rr | rrr | rl | l
deriving DecidableEq, Repr

/-- "Exactly one shape applies per opcode" (30_encoding.md R63, R68). -/
def Mnemonic.shape : Mnemonic → Shape
  | .add | .sub | .mul | .div => .rrr
  | .imm => .rl
  | .push | .pop => .r
  | .stackAdd | .stackSub | .stackMul | .stackDiv => .n
  | .cmp => .rr
  | .jmp | .je | .jne | .jg | .jge | .jl | .jle | .jz | .jnz | .call => .l
  | .ret | .fn | .syscall => .n

/-- A decoded instruction, operands in the order of 30_encoding.md R67: for the three-register operations `r3` is
the destination, and `k` is a Bit13Literal (R75), whose range `WellFormed` checks. -/
inductive Instr where
  | add (r1 r2 r3 : Reg)
  | sub (r1 r2 r3 : Reg)
  | mul (r1 r2 r3 : Reg)
  | div (r1 r2 r3 : Reg)
  | imm (r1 : Reg) (k : Nat)
  | push (r1 : Reg)
  | pop (r1 : Reg)
  | stackAdd
  | stackSub
  | stackMul
  | stackDiv
  | cmp (r1 r2 : Reg)
  | jmp (k : Nat)
  | je (k : Nat)
  | jne (k : Nat)
  | jg (k : Nat)
  | jge (k : Nat)
  | jl (k : Nat)
  | jle (k : Nat)
  | jz (k : Nat)
  | jnz (k : Nat)
  | ret
  | call (k : Nat)
  | fn
  | syscall
deriving DecidableEq, Repr

/-- The mnemonic of an instruction. -/
def Instr.mnemonic : Instr → Mnemonic
  | .add _ _ _ => .add
  | .sub _ _ _ => .sub
  | .mul _ _ _ => .mul
  | .div _ _ _ => .div
  | .imm _ _ => .imm
  | .push _ => .push
  | .pop _ => .pop
  | .stackAdd => .stackAdd
  | .stackSub => .stackSub
  | .stackMul => .stackMul
  | .stackDiv => .stackDiv
  | .cmp _ _ => .cmp
  | .jmp _ => .jmp
  | .je _ => .je
  | .jne _ => .jne
  | .jg _ => .jg
  | .jge _ => .jge
  | .jl _ => .jl
  | .jle _ => .jle
  | .jz _ => .jz
  | .jnz _ => .jnz
  | .ret => .ret
  | .call _ => .call
  | .fn => .fn
  | .syscall => .syscall

/-- The literal operand of an instruction of shape RL or L. -/
def Instr.literal? : Instr → Option Nat
  | .imm _ k | .jmp k | .je k | .jne k | .jg k | .jge k | .jl k | .jle k | .jz k | .jnz k | .call k => some k
  | .add _ _ _ | .sub _ _ _ | .mul _ _ _ | .div _ _ _ | .push _ | .pop _ | .stackAdd | .stackSub | .stackMul
  | .stackDiv | .cmp _ _ | .ret | .fn | .syscall => none

end Sys2Proof
end

