-- ==== Sys2Proof/Config.lean ====
section
/-!
DEFINITION. What an implementation fixes (00_scope.md R9): the opcode tags, the spelling of the text rendering, the
sizes State.reset takes; and the FREE VALUES, opaque constants about which nothing can be proved: the host's answers
beyond those scripted in the state, and what the literal parser answers where the spec leaves it open.
-/

namespace Sys2Proof

/-- A tag map `OPCODE_TAG`: the 8-bit tag of each mnemonic (30_encoding.md R69). -/
abbrev TagMap := Mnemonic → BitVec 8

/-- `OPCODE_TAG` is "an injective map from the 25 mnemonics to 0..255" (30_encoding.md R69). -/
abbrev TagMap.Injective (tag : TagMap) : Prop := ∀ m n : Mnemonic, tag m = tag n → m = n

/-- The default tags: table order from 0x00 (30_encoding.md R69).
DESIGN CHOICE of the spec (92_eei_decisions.md D2), unsafe: log entry 10. -/
def Config.opcodeTag : TagMap
  | .add => 0x00
  | .sub => 0x01
  | .mul => 0x02
  | .div => 0x03
  | .imm => 0x04
  | .push => 0x05
  | .pop => 0x06
  | .stackAdd => 0x07
  | .stackSub => 0x08
  | .stackMul => 0x09
  | .stackDiv => 0x0A
  | .cmp => 0x0B
  | .jmp => 0x0C
  | .je => 0x0D
  | .jne => 0x0E
  | .jg => 0x0F
  | .jge => 0x10
  | .jl => 0x11
  | .jle => 0x12
  | .jz => 0x13
  | .jnz => 0x14
  | .ret => 0x15
  | .call => 0x16
  | .fn => 0x17
  | .syscall => 0x18

/-- `RENDER_SPELLING`: how mnemonics and registers are spelled (30_encoding.md R78). -/
structure Spelling where
  mnemonic : Mnemonic → String
  register : Reg → String

/-- The source's spelling (30_encoding.md R68; 10_state.md R20). DESIGN CHOICE, unsafe for text only: log entry 12. -/
def Config.spelling : Spelling where
  mnemonic
    | .add => "Add"
    | .sub => "Sub"
    | .mul => "Mul"
    | .div => "Div"
    | .imm => "Imm"
    | .push => "Push"
    | .pop => "Pop"
    | .stackAdd => "StackAdd"
    | .stackSub => "StackSub"
    | .stackMul => "StackMul"
    | .stackDiv => "StackDiv"
    | .cmp => "Cmp"
    | .jmp => "Jmp"
    | .je => "Je"
    | .jne => "Jne"
    | .jg => "Jg"
    | .jge => "Jge"
    | .jl => "Jl"
    | .jle => "Jle"
    | .jz => "Jz"
    | .jnz => "Jnz"
    | .ret => "Ret"
    | .call => "Call"
    | .fn => "Fn"
    | .syscall => "Syscall"
  register
    | .sp => "SP"
    | .pc => "PC"
    | .flag => "Flag"
    | .zero => "Zero"
    | .a => "A"
    | .b => "B"
    | .c => "C"
    | .d => "D"

/-- The bound of `N_INSTR` and of `MEM_WORDS` (00_scope.md R9): each is at most 2^32. -/
def Config.maxWords : Nat := 2 ^ 32

/-- `MEM_WORDS` of State.reset. DESIGN CHOICE, unsafe: log entry 3. -/
def Config.resetMemWords : Nat := Config.maxWords

/-- What an address of data memory with no entry reads as, that is, `DATA_INIT` of State.reset at every word.
DESIGN CHOICE, unsafe for claims about State.reset, safe for claims about every state: log entry 2. -/
def Config.unlistedWord : Word := 0

/-- The host's answer to a line request: a line of any bytes, a failure (45_syscall.md R188), or no answer ever (R187). -/
inductive HostLine where
  | line (bytes : List Byte)
  | fail
  | silent
deriving DecidableEq, Repr, Inhabited

/-- The host's answer to one word written: accepted, refused (45_syscall.md R188), or no answer ever (R187). -/
inductive HostAck where
  | ok
  | fail
  | silent
deriving DecidableEq, Repr, Inhabited

/-- FREE VALUE: the host's answer to its n-th line request where the state scripts none. Safe: log entry 7. -/
opaque Config.hostLine : Nat → HostLine

/-- FREE VALUE: the host's answer to the n-th word written where the state scripts none. Safe: log entry 7. -/
opaque Config.hostAck : Nat → HostAck

/-- What parsing a literal gives (30_encoding.md R76). -/
inductive LitParse where
  | value (k : Nat)
  | tooBig
  | invalidDigit
deriving DecidableEq, Repr, Inhabited

/-- FREE VALUE: whether the parser accepts a text spelled in a way the spec leaves open (91_not_in_source.md N12). Safe: log
entry 13. -/
opaque Config.acceptsOpenText : List Char → Bool

/-- FREE VALUE: whether a text that must fail, and whose error the spec leaves open, fails with TooBig rather than InvalidDigit
(91_not_in_source.md N12). Safe: log entry 13. -/
opaque Config.failsTooBig : List Char → Bool

/-- FREE VALUE: what the parser answers for a text without a digit (30_encoding.md R76, "empty text"). Safe: log entry 13. -/
opaque Config.openParse : List Char → LitParse

end Sys2Proof
end

