-- ==== Sys2Proof/WellFormed.lean ====
section
/-!
DEFINITION. Which terms of `Instr` are instructions of the machine. A register operand cannot be ill formed
(30_encoding.md R62; 10_state.md R35); a literal must be a Bit13Literal, "an unsigned integer value constrained to
the inclusive range [0, 8191]" (30_encoding.md R75). A literal is a Nat that this file checks: DESIGN CHOICE, log entry 15.
-/

namespace Sys2Proof

/-- The largest Bit13Literal (30_encoding.md R75). -/
def maxLiteral : Nat := 8191

/-- Every literal operand is a Bit13Literal. -/
def Instr.wellFormed (i : Instr) : Bool :=
  match i.literal? with
  | some k => decide (k ≤ maxLiteral)
  | none => true

end Sys2Proof
end

