-- ==== Sys2Proof/Decode.lean ====
section
/-!
DEFINITION. The instruction codec (30_encoding.md): field extraction (R61), decode (R70) and encode (R71) for any tag
map `OPCODE_TAG`, and their instances at the default tags. Decode is total on words and rejects an unknown tag by name.
-/

namespace Sys2Proof

/-- The register of index `n` (30_encoding.md R62; 10_state.md R20). -/
def Reg.ofIdx (n : BitVec 3) : Reg :=
  match n.toFin with
  | 0 => .sp
  | 1 => .pc
  | 2 => .flag
  | 3 => .zero
  | 4 => .a
  | 5 => .b
  | 6 => .c
  | 7 => .d

/-- The index of a register (10_state.md R20). -/
def Reg.idx : Reg → BitVec 3
  | .sp => 0
  | .pc => 1
  | .flag => 2
  | .zero => 3
  | .a => 4
  | .b => 5
  | .c => 6
  | .d => 7

/-! ### Fields of a word (30_encoding.md R61) -/

def Word.tag (w : Word) : BitVec 8 := w.extractLsb' 0 8
def Word.r1 (w : Word) : Reg := Reg.ofIdx (w.extractLsb' 8 3)
def Word.r2 (w : Word) : Reg := Reg.ofIdx (w.extractLsb' 11 3)
def Word.r3 (w : Word) : Reg := Reg.ofIdx (w.extractLsb' 14 3)
def Word.lit13 (w : Word) : Nat := (w.extractLsb' 11 13).toNat

/-- The don't-care bits of a shape, set (30_encoding.md R65). -/
def Shape.dontCare : Shape → Word
  | .n => 0xFFFFFF00
  | .r => 0xFFFFF800
  | .rr => 0xFFFFC000
  | .rrr => 0xFFFE0000
  | .rl => 0xFF000000
  | .l => 0xFF000700

/-! ### Decode -/

/-- What decode gives: an Opcode or `DecodeFault(tag)` (30_encoding.md R70). -/
inductive Decoded where
  | op (i : Instr)
  | fault (tag : BitVec 8)
deriving DecidableEq, Repr

/-- The mnemonic a tag selects, if any (30_encoding.md R70). -/
def mnemonicOf (tag : TagMap) (t : BitVec 8) : Option Mnemonic :=
  Mnemonic.all.find? fun m => tag m == t

/-- The instruction of mnemonic `m` with the operands of `w`, by the shape of `m` (30_encoding.md R63, R70). -/
def assemble (m : Mnemonic) (w : Word) : Instr :=
  match m with
  | .add => .add w.r1 w.r2 w.r3
  | .sub => .sub w.r1 w.r2 w.r3
  | .mul => .mul w.r1 w.r2 w.r3
  | .div => .div w.r1 w.r2 w.r3
  | .imm => .imm w.r1 w.lit13
  | .push => .push w.r1
  | .pop => .pop w.r1
  | .stackAdd => .stackAdd
  | .stackSub => .stackSub
  | .stackMul => .stackMul
  | .stackDiv => .stackDiv
  | .cmp => .cmp w.r1 w.r2
  | .jmp => .jmp w.lit13
  | .je => .je w.lit13
  | .jne => .jne w.lit13
  | .jg => .jg w.lit13
  | .jge => .jge w.lit13
  | .jl => .jl w.lit13
  | .jle => .jle w.lit13
  | .jz => .jz w.lit13
  | .jnz => .jnz w.lit13
  | .ret => .ret
  | .call => .call w.lit13
  | .fn => .fn
  | .syscall => .syscall

/-- `decode(w)` under a tag map (30_encoding.md R70, R73). -/
def decodeWith (tag : TagMap) (w : Word) : Decoded :=
  match mnemonicOf tag w.tag with
  | some m => .op (assemble m w)
  | none => .fault w.tag

/-- Decode under the default tags (30_encoding.md R69). -/
def decode (w : Word) : Decoded := decodeWith Config.opcodeTag w

/-! ### Encode (30_encoding.md R71): every don't-care bit is 0 -/

def encN (t : BitVec 8) : Word := t.zeroExtend 32
def encR (t : BitVec 8) (ra : Reg) : Word := encN t ||| ra.idx.zeroExtend 32 <<< 8
def encRR (t : BitVec 8) (ra rb : Reg) : Word := encR t ra ||| rb.idx.zeroExtend 32 <<< 11
def encRRR (t : BitVec 8) (ra rb rc : Reg) : Word := encRR t ra rb ||| rc.idx.zeroExtend 32 <<< 14
def encRL (t : BitVec 8) (ra : Reg) (k : Nat) : Word := encR t ra ||| BitVec.ofNat 32 k <<< 11
def encL (t : BitVec 8) (k : Nat) : Word := encN t ||| BitVec.ofNat 32 k <<< 11

/-- `encode(op)` under a tag map (30_encoding.md R71). -/
def encodeWith (tag : TagMap) (i : Instr) : Word :=
  match i with
  | .add r1 r2 r3 => encRRR (tag .add) r1 r2 r3
  | .sub r1 r2 r3 => encRRR (tag .sub) r1 r2 r3
  | .mul r1 r2 r3 => encRRR (tag .mul) r1 r2 r3
  | .div r1 r2 r3 => encRRR (tag .div) r1 r2 r3
  | .imm r1 k => encRL (tag .imm) r1 k
  | .push r1 => encR (tag .push) r1
  | .pop r1 => encR (tag .pop) r1
  | .stackAdd => encN (tag .stackAdd)
  | .stackSub => encN (tag .stackSub)
  | .stackMul => encN (tag .stackMul)
  | .stackDiv => encN (tag .stackDiv)
  | .cmp r1 r2 => encRR (tag .cmp) r1 r2
  | .jmp k => encL (tag .jmp) k
  | .je k => encL (tag .je) k
  | .jne k => encL (tag .jne) k
  | .jg k => encL (tag .jg) k
  | .jge k => encL (tag .jge) k
  | .jl k => encL (tag .jl) k
  | .jle k => encL (tag .jle) k
  | .jz k => encL (tag .jz) k
  | .jnz k => encL (tag .jnz) k
  | .ret => encN (tag .ret)
  | .call k => encL (tag .call) k
  | .fn => encN (tag .fn)
  | .syscall => encN (tag .syscall)

/-- Encode under the default tags. -/
def encode (i : Instr) : Word := encodeWith Config.opcodeTag i

/-! ### The host's table words -/

/-- The word whose low `nbits` bits are those of `w` and whose other bits are 0. An instruction is one 32-bit word
(30_encoding.md R60), and it holds no bytes to order (20_memory.md R46). -/
def tableWord (nbits w : Nat) : Word := BitVec.ofNat 32 (w % 2 ^ nbits)

/-- The instruction the decoder reads from a word of the opcode table, none where it rejects the word. -/
def decodeTableWord (nbits w : Nat) : Option Instr :=
  match decode (tableWord nbits w) with
  | .op i => some i
  | .fault _ => none

end Sys2Proof
end

