-- ==== Sys2Proof/Machine/State.lean ====
section
/-!
DEFINITION. The machine's state as plain data (10_state.md), the error kinds a step can report (60_exceptions.md R210),
the model's own stops, and the state after reset. The inventory's "State" section lists every field with its rule.
-/

namespace Sys2Proof.Machine

/-- The register file: eight 32-bit registers, none of them hardwired (10_state.md R20, R21). -/
structure RegFile where
  sp : Word
  pc : Word
  flag : Word
  zero : Word
  a : Word
  b : Word
  c : Word
  d : Word
deriving DecidableEq, Repr

/-- The engine mode (10_state.md R28): the source's skip flag, true meaning `skippingBody` (90_conflicts.md C12). -/
inductive Mode where
  | running
  | skippingBody
deriving DecidableEq, Repr

/-- An error kind with the info it carries (60_exceptions.md R200, R210). Addresses and nothing else are exact
integers (45_syscall.md R185; log entry 18). -/
inductive Error where
  | noNextInstruction (pc : Word)
  | stackOverflow (sp : Word)
  | stackUnderflow (sp : Word)
  | memoryWrite (addr : Nat)
  | memoryRead (addr : Nat)
  | hostIo
  | unknownOpcode (tag : BitVec 8)
  | divisionByZero (index : Word)
  | unimplementedSyscall (selector : Word)
deriving DecidableEq, Repr

/-- The run status (10_state.md R29): it ends a run, with the exit code or with the error (log entry 5). -/
inductive Status where
  | live
  | exited (code : Word)
  | faulted (e : Error)
deriving DecidableEq, Repr

/-- The data memory: `MEM_WORDS` words (10_state.md R32), held as the words that differ from
`Config.unlistedWord`, by address (log entry 1). -/
structure Memory where
  capacity : Nat
  cells : List (Nat × Word)
deriving DecidableEq, Repr

/-- One word sent to the host, and whether the host accepted it (45_syscall.md R185, R188; log entry 9). -/
structure Sent where
  word : Word
  accepted : Bool
deriving DecidableEq, Repr

/-- The host's side (parameter HOST, 00_scope.md R9; 45_syscall.md R188), the MODEL's own fields (log entries 7, 9):
the scripted answers to the first requests, how many requests of each kind were made, and what was sent, oldest first. -/
structure HostPort where
  lines : List HostLine
  acks : List HostAck
  lineReqs : Nat
  writeReqs : Nat
  sent : List Sent
deriving DecidableEq, Repr

/-- The whole machine (10_state.md). `prog` is the instruction store, whose length is `N_INSTR` (R31). -/
structure State where
  regs : RegFile
  mode : Mode
  status : Status
  prog : List Word
  data : Memory
  host : HostPort
deriving DecidableEq, Repr

/-- The model's one fault: a step that never completes. -/
inductive Fault where
  /-- Raised by Syscall 1 and 2 when the host never answers a transaction (45_syscall.md R187; 93_implementation_defined.md
  I20, "stuck"). Safe: the hardware's step does not complete either. Log entry 8. -/
  | hostSilent
deriving DecidableEq, Repr

/-- What the model has no step for. -/
inductive Refusal where
  /-- An instruction without a meaning yet: no arm of exec answers it. Safe. -/
  | notModelled (mnemonic : String)
  /-- Raised by step when the status is not Live: "the block takes no further step" (40_step.md R100;
  93_implementation_defined.md I11, I12, "refuse"). Safe: the spec gives no such step. Log entry 6. -/
  | notLive
deriving DecidableEq, Repr

/-- All registers 0 (10_state.md R34). -/
def RegFile.zeroed : RegFile :=
  { sp := 0, pc := 0, flag := 0, zero := 0, a := 0, b := 0, c := 0, d := 0 }

/-- A data memory of `capacity` words with no word listed. -/
def Memory.blank (capacity : Nat) : Memory := { capacity := capacity, cells := [] }

/-- A host with no scripted answer and no request yet. -/
def HostPort.fresh : HostPort := { lines := [], acks := [], lineReqs := 0, writeReqs := 0, sent := [] }

/-- The machine right after reset, that is, construction (70_reset_and_hazards.md R220; 10_state.md R34). The program,
the data memory's contents and size, and the host are construction's parameters; those taken here are
DESIGN CHOICES: log entries 2, 3, 4 and 7. -/
def State.reset : State where
  regs := RegFile.zeroed
  mode := .running
  status := .live
  prog := []
  data := Memory.blank Config.resetMemWords
  host := HostPort.fresh

end Sys2Proof.Machine
end

