-- ==== Sys2Proof/Machine/Ops.lean ====
section
/-!
DEFINITION. The shared operations: register access (10_state.md R35), the two memories' primitives (20_memory.md R42,
R43), raising an error (60_exceptions.md R200), the checked stack primitives (42_stack.md R130, R131), and fetch with the
advance of PC (40_step.md R92, R93). There is no return from an error: no handler ever runs (60_exceptions.md R214).
-/

namespace Sys2Proof.Machine

/-! ### Registers -/

def RegFile.get (f : RegFile) : Reg → Word
  | .sp => f.sp
  | .pc => f.pc
  | .flag => f.flag
  | .zero => f.zero
  | .a => f.a
  | .b => f.b
  | .c => f.c
  | .d => f.d

def RegFile.set (f : RegFile) (r : Reg) (v : Word) : RegFile :=
  match r with
  | .sp => { f with sp := v }
  | .pc => { f with pc := v }
  | .flag => { f with flag := v }
  | .zero => { f with zero := v }
  | .a => { f with a := v }
  | .b => { f with b := v }
  | .c => { f with c := v }
  | .d => { f with d := v }

/-- `x[r]` (00_scope.md R12). -/
def State.readReg (s : State) (r : Reg) : Word := s.regs.get r

/-- `x[r] <- v` (00_scope.md R12): every register is writable, with no special case (10_state.md R21). -/
def State.writeReg (s : State) (r : Reg) (v : Word) : State := { s with regs := s.regs.set r v }

/-! ### Data memory (20_memory.md R42) -/

/-- The word a list of cells gives at an address. -/
def cellsGet : List (Nat × Word) → Nat → Word
  | [], _ => Config.unlistedWord
  | (b, u) :: rest, a => if a = b then u else cellsGet rest a

/-- The cells with `v` at address `a`, in canonical form again. -/
def cellsSet : List (Nat × Word) → Nat → Word → List (Nat × Word)
  | [], a, v => if v = Config.unlistedWord then [] else [(a, v)]
  | (b, u) :: rest, a, v =>
    if a < b then
      if v = Config.unlistedWord then (b, u) :: rest else (a, v) :: (b, u) :: rest
    else if a = b then
      if v = Config.unlistedWord then rest else (a, v) :: rest
    else (b, u) :: cellsSet rest a v

/-- Addresses rise strictly from `lo` on, stay below `hi`, and no cell holds what an unlisted address reads as. -/
def cellsWf (hi : Nat) : Nat → List (Nat × Word) → Bool
  | _, [] => true
  | lo, (a, v) :: rest =>
    decide (lo ≤ a) && decide (a < hi) && decide (v ≠ Config.unlistedWord) && cellsWf hi (a + 1) rest

/-- The canonical form of the data memory: equal memories are equal data. -/
def Memory.wf (m : Memory) : Bool := cellsWf m.capacity 0 m.cells

/-- `MemRead(a, 1)`: none when `a >= MEM_WORDS` (20_memory.md R42). -/
def Memory.read (m : Memory) (a : Nat) : Option Word :=
  if a < m.capacity then some (cellsGet m.cells a) else none

/-- `MemWrite(a, 1, v)`: none when `a >= MEM_WORDS` (20_memory.md R42). -/
def Memory.write (m : Memory) (a : Nat) (v : Word) : Option Memory :=
  if a < m.capacity then some { m with cells := cellsSet m.cells a v } else none

/-! ### Instruction store -/

/-- `IFetch(i)`: none when `i >= N_INSTR` (20_memory.md R43). -/
def State.iFetch (s : State) (i : Nat) : Option Word := s.prog[i]?

/-! ### Raising an error -/

/-- `raise E(info)`: the step ends in the state reached so far, and the run ends (60_exceptions.md R200; 40_step.md R100).
No register is saved, no mode changes, control goes nowhere (60_exceptions.md R213). -/
def State.raise (s : State) (e : Error) : State := { s with status := .faulted e }

/-- The class of an error, "information for the driver only" (60_exceptions.md R210, R211). -/
def Error.recoverable : Error → Bool
  | .noNextInstruction _ | .stackOverflow _ | .stackUnderflow _ | .memoryWrite _ | .memoryRead _ | .hostIo => true
  | .unknownOpcode _ | .divisionByZero _ | .unimplementedSyscall _ => false

/-- The numeric code of an error kind (60_exceptions.md R210). -/
def Error.code : Error → Nat
  | .noNextInstruction _ => 1
  | .stackOverflow _ => 2
  | .stackUnderflow _ => 3
  | .memoryWrite _ => 4
  | .memoryRead _ => 5
  | .hostIo => 6
  | .unknownOpcode _ => 16
  | .divisionByZero _ => 17
  | .unimplementedSyscall _ => 18

/-! ### Pseudocode that may raise

A piece of a rule's pseudocode ends normally, raises an error in the state reached at the raise, or waits for ever for
the host. -/

inductive Res (α : Type) where
  | ok (v : α) (s : State)
  | raised (e : Error) (s : State)
  | hang
deriving Repr

/-- Statements run in the order written; nothing after a raise runs (00_scope.md R12). -/
def Res.bind {α β : Type} (r : Res α) (f : α → State → Res β) : Res β :=
  match r with
  | .ok v s => f v s
  | .raised e s => .raised e s
  | .hang => .hang

/-- The step's outcome: Continue, an error (a next state whose status says so: log entry 5), or a step that never
completes (log entry 8). -/
def Res.finish (r : Res Unit) : Host.Outcome State Fault Refusal :=
  match r with
  | .ok _ s => .next s
  | .raised e s => .next (s.raise e)
  | .hang => .fault .hostSilent

/-! ### The stack (42_stack.md) -/

/-- `StackPush(v)` (42_stack.md R130). The MemoryWrite branch is the source's, and cannot be reached. -/
def stackPush (v : Word) (s : State) : Res Unit :=
  let sp := s.readReg .sp
  if sp.toNat + 1 ≥ s.data.capacity then .raised (.stackOverflow sp) s
  else
    match s.data.write sp.toNat v with
    | none => .raised (.memoryWrite sp.toNat) s
    | some m => .ok () ({ s with data := m }.writeReg .sp (wrap32 (sp.toNat + 1)))

/-- `StackPop()` (42_stack.md R131): SP is lowered before the read, and stays so if the read fails. -/
def stackPop (s : State) : Res Word :=
  let sp := s.readReg .sp
  if sp.toNat < 1 then .raised (.stackUnderflow sp) s
  else
    let t := s.writeReg .sp (wrap32 (sp.toNat - 1))
    match t.data.read (sp.toNat - 1) with
    | none => .raised (.memoryRead (sp.toNat - 1)) t
    | some v => .ok v t

/-- The index of the instruction being executed: PC was advanced at fetch (41_arith_imm.md R114, "`pc - 1`"; log
entry 19). -/
def State.thisIndex (s : State) : Word := wrap32 ((s.readReg .pc).toNat - 1)

/-! ### Fetch -/

/-- Fetch the word at PC (40_step.md R92). -/
def State.fetch (s : State) : Option Word := s.iFetch (s.readReg .pc).toNat

/-- `pc <- wrap32(pc + 1)` (40_step.md R93; log entry 17). -/
def State.advancePc (s : State) : State := s.writeReg .pc (wrap32 ((s.readReg .pc).toNat + 1))

/-- The skip filter: in SkippingBody a decoded Ret returns to Running, and nothing else has an effect (40_step.md R95). -/
def State.skip (i : Instr) (s : State) : State :=
  match i.mnemonic with
  | .ret => { s with mode := .running }
  | _ => s

/-- The instruction store with word `w` at index `i`; a store that is too short is first lengthened with zero words. -/
def progWith (prog : List Word) (i : Nat) (w : Word) : List Word :=
  (prog ++ List.replicate (i + 1 - prog.length) 0).set i w

/-- The state whose next step fetches, decodes and runs `w`: the word at PC, in Running, Live (log entry 4). -/
def State.placeWord (s : State) (w : Word) : State :=
  { s with prog := progWith s.prog (s.readReg .pc).toNat w, mode := .running, status := .live }

end Sys2Proof.Machine
end

