-- ==== Sys2Proof/Machine/Cycle.lean ====
section
/-!
DEFINITION. The step cycle (40_step.md R91) over any tag map and any execution function; Step.lean gives it exec. The mode
is tested here, not in exec, which is an instruction's meaning in Running: DESIGN CHOICE, log entry 16.
-/

namespace Sys2Proof.Machine

/-- Dispatch after decode: an unknown tag raises in either mode (40_step.md R94), a body being skipped is inert (R95),
and otherwise the instruction runs (R96). PC is already advanced. -/
def afterDecode (run : Instr → State → Host.Outcome State Fault Refusal) (d : Decoded) (s : State) :
    Host.Outcome State Fault Refusal :=
  match d with
  | .fault t => .next (s.raise (.unknownOpcode t))
  | .op i =>
    match s.mode with
    | .skippingBody => .next (s.skip i)
    | .running => run i s

/-- One step: fetch, advance PC, decode, then skip or execute (40_step.md R91). Only a Live machine steps (R100). -/
def cycle (tag : TagMap) (run : Instr → State → Host.Outcome State Fault Refusal) (s : State) :
    Host.Outcome State Fault Refusal :=
  match s.status with
  | .live =>
    match s.fetch with
    | none => .next (s.raise (.noNextInstruction (s.readReg .pc)))
    | some w => afterDecode run (decodeWith tag w) s.advancePc
  | .exited _ => .refused .notLive
  | .faulted _ => .refused .notLive

end Sys2Proof.Machine
end

