-- ==== Sys2Proof/Machine/Operands.lean ====
section
/-!
DEFINITION. The operand forms (30_encoding.md R66): a register, read or written whole (State.readReg and
State.writeReg of Ops), and a literal, zero-extended. And the arithmetic unit's four operations (41_arith_imm.md R110),
which the three-register and the stack instructions share.
-/

namespace Sys2Proof.Machine

/-- `zext_32(k)` of a literal operand: never sign-extended, scaled or shifted (30_encoding.md R66). -/
def literal (k : Nat) : Word := BitVec.ofNat 32 k

/-- `zext_32` of a byte of input (45_syscall.md R184). -/
def byteWord (b : Byte) : Word := b.zeroExtend 32

/-- The sum modulo 2^32 (41_arith_imm.md R110). -/
def aluAdd (a b : Word) : Word := wrap32 (a.toNat + b.toNat)

/-- The difference modulo 2^32 (41_arith_imm.md R110). -/
def aluSub (a b : Word) : Word := wrap32 ((a.toNat : Int) - b.toNat)

/-- The low 32 bits of the product (41_arith_imm.md R110). -/
def aluMul (a b : Word) : Word := wrap32 (a.toNat * b.toNat)

/-- The quotient rounded toward zero, none when the divisor is 0 (41_arith_imm.md R110). -/
def aluDiv (a b : Word) : Option Word :=
  if b = 0 then none else some (wrap32 ((a.toNat / b.toNat : Nat) : Int))

end Sys2Proof.Machine
end

