-- ==== Sys2Proof/Machine/Arith.lean ====
section
/-!
DEFINITION. Register arithmetic and immediate load (41_arith_imm.md R111 to R115). Both sources are read before the
destination is written (40_step.md R97); Flag changes only if it is the destination.
-/

namespace Sys2Proof.Machine

/-- `x[r3] <- wrap32(x[r1] + x[r2])` (41_arith_imm.md R111). -/
def execAdd (r1 r2 r3 : Reg) (s : State) : Host.Outcome State Fault Refusal :=
  .next (s.writeReg r3 (aluAdd (s.readReg r1) (s.readReg r2)))

/-- `x[r3] <- wrap32(x[r1] - x[r2])` (41_arith_imm.md R112). -/
def execSub (r1 r2 r3 : Reg) (s : State) : Host.Outcome State Fault Refusal :=
  .next (s.writeReg r3 (aluSub (s.readReg r1) (s.readReg r2)))

/-- `x[r3] <- wrap32(x[r1] * x[r2])` (41_arith_imm.md R113). -/
def execMul (r1 r2 r3 : Reg) (s : State) : Host.Outcome State Fault Refusal :=
  .next (s.writeReg r3 (aluMul (s.readReg r1) (s.readReg r2)))

/-- `x[r3] <- x[r1] / x[r2]`, or DivisionByZero with nothing written (41_arith_imm.md R114). -/
def execDiv (r1 r2 r3 : Reg) (s : State) : Host.Outcome State Fault Refusal :=
  match aluDiv (s.readReg r1) (s.readReg r2) with
  | none => .next (s.raise (.divisionByZero s.thisIndex))
  | some q => .next (s.writeReg r3 q)

/-- `x[r1] <- zext_32(k)` (41_arith_imm.md R115). -/
def execImm (r1 : Reg) (k : Nat) (s : State) : Host.Outcome State Fault Refusal :=
  .next (s.writeReg r1 (literal k))

end Sys2Proof.Machine
end

