-- ==== Sys2Proof/Machine/Flags.lean ====
section
/-!
DEFINITION. The Flag register's bits (10_state.md R26): what Cmp computes (43_compare_branch.md R150) and the
conditions of the eight conditional jumps (R153 to R160).
-/

namespace Sys2Proof.Machine

/-- One comparison bit: `bit` if the comparison holds, else 0. -/
def flagIf (p : Prop) [Decidable p] (bit : Word) : Word := if p then bit else 0

/-- Cmp's value of Flag, built from 0 (43_compare_branch.md R150): bit 0 ZF, 1 LT, 2 GT, 3 EQ, 4 NE. -/
def compareFlags (a b : Word) : Word :=
  flagIf (a.toNat = 0) 1 ||| flagIf (a.toNat < b.toNat) 2 ||| flagIf (a.toNat > b.toNat) 4
    ||| flagIf (a.toNat = b.toNat) 8 ||| flagIf (a.toNat ≠ b.toNat) 16

/-- Bit `n` of the Flag register. -/
def State.flagBit (s : State) (n : Nat) : Bool := (s.readReg .flag).getLsbD n

/-- Bit 3 set (43_compare_branch.md R153). -/
def condE (s : State) : Bool := s.flagBit 3
/-- Bit 4 set (R154). -/
def condNe (s : State) : Bool := s.flagBit 4
/-- Bit 2 set (R155). -/
def condG (s : State) : Bool := s.flagBit 2
/-- Bits 2 and 3 both set, the literal test the source requires (R156; 90_conflicts.md C4). -/
def condGe (s : State) : Bool := s.flagBit 2 && s.flagBit 3
/-- Bit 1 set (R157). -/
def condL (s : State) : Bool := s.flagBit 1
/-- Bits 1 and 3 both set, the literal test the source requires (R158; 90_conflicts.md C4). -/
def condLe (s : State) : Bool := s.flagBit 1 && s.flagBit 3
/-- Bit 0 set (R159). -/
def condZ (s : State) : Bool := s.flagBit 0
/-- Bit 0 clear (R160). -/
def condNz (s : State) : Bool := !s.flagBit 0

end Sys2Proof.Machine
end

