-- ==== Sys2Proof/Machine/Branch.lean ====
section
/-!
DEFINITION. Compare and the jumps (43_compare_branch.md R150 to R162). A jump's target is its literal, absolute; a jump
not taken leaves PC at the next word.
-/

namespace Sys2Proof.Machine

/-- Cmp rewrites the whole Flag register (43_compare_branch.md R150). -/
def execCmp (r1 r2 : Reg) (s : State) : Host.Outcome State Fault Refusal :=
  .next (s.writeReg .flag (compareFlags (s.readReg r1) (s.readReg r2)))

/-- `if cond: pc <- zext_32(k)` (43_compare_branch.md R162). -/
def jumpIf (cond : Bool) (k : Nat) (s : State) : State :=
  if cond then s.writeReg .pc (literal k) else s

/-- `pc <- zext_32(k)` (43_compare_branch.md R152). -/
def execJmp (k : Nat) (s : State) : Host.Outcome State Fault Refusal := .next (jumpIf true k s)

/-- 43_compare_branch.md R153. -/
def execJe (k : Nat) (s : State) : Host.Outcome State Fault Refusal := .next (jumpIf (condE s) k s)

/-- 43_compare_branch.md R154. -/
def execJne (k : Nat) (s : State) : Host.Outcome State Fault Refusal := .next (jumpIf (condNe s) k s)

/-- 43_compare_branch.md R155. -/
def execJg (k : Nat) (s : State) : Host.Outcome State Fault Refusal := .next (jumpIf (condG s) k s)

/-- 43_compare_branch.md R156. -/
def execJge (k : Nat) (s : State) : Host.Outcome State Fault Refusal := .next (jumpIf (condGe s) k s)

/-- 43_compare_branch.md R157. -/
def execJl (k : Nat) (s : State) : Host.Outcome State Fault Refusal := .next (jumpIf (condL s) k s)

/-- 43_compare_branch.md R158. -/
def execJle (k : Nat) (s : State) : Host.Outcome State Fault Refusal := .next (jumpIf (condLe s) k s)

/-- 43_compare_branch.md R159. -/
def execJz (k : Nat) (s : State) : Host.Outcome State Fault Refusal := .next (jumpIf (condZ s) k s)

/-- 43_compare_branch.md R160. -/
def execJnz (k : Nat) (s : State) : Host.Outcome State Fault Refusal := .next (jumpIf (condNz s) k s)

end Sys2Proof.Machine
end

