-- ==== Sys2Proof/Machine/Call.lean ====
section
/-!
DEFINITION. Call, return and the function-body marker, in Running (44_call_fn.md R170 to R172). What they do in
SkippingBody is State.skip of Ops (40_step.md R95).
-/

namespace Sys2Proof.Machine

/-- Push the advanced PC, then `pc <- zext_32(k) + 1`; an overflow leaves PC advanced (44_call_fn.md R170). -/
def execCall (k : Nat) (s : State) : Host.Outcome State Fault Refusal :=
  ((stackPush (s.readReg .pc) s).bind fun _ t => .ok () (t.writeReg .pc (wrap32 ((literal k).toNat + 1)))).finish

/-- Pop one word into PC (44_call_fn.md R171). -/
def execRet (s : State) : Host.Outcome State Fault Refusal :=
  ((stackPop s).bind fun v t => .ok () (t.writeReg .pc v)).finish

/-- `mode <- SkippingBody` (44_call_fn.md R172). -/
def execFn (s : State) : Host.Outcome State Fault Refusal :=
  .next { s with mode := .skippingBody }

end Sys2Proof.Machine
end

