-- ==== Sys2Proof/Machine/Stack.lean ====
section
/-!
DEFINITION. The stack instructions (42_stack.md R132 to R138), over StackPush and StackPop of Ops.
-/

namespace Sys2Proof.Machine

/-- `v <- x[r1]; StackPush(v)`: the value is read before SP moves (42_stack.md R132). -/
def execPush (r1 : Reg) (s : State) : Host.Outcome State Fault Refusal :=
  (stackPush (s.readReg r1) s).finish

/-- `v <- StackPop(); x[r1] <- v`: for `Pop SP` the popped word is SP's last value (42_stack.md R133). -/
def execPop (r1 : Reg) (s : State) : Host.Outcome State Fault Refusal :=
  ((stackPop s).bind fun v t => .ok () (t.writeReg r1 v)).finish

/-- Pop `a`, pop `b`, push `b op a`; a division without a quotient raises DivisionByZero after both pops
(42_stack.md R135 to R138; 92_eei_decisions.md D23). -/
def stackBinary (op : Word → Word → Option Word) (s : State) : Res Unit :=
  (stackPop s).bind fun a t =>
    (stackPop t).bind fun b u =>
      match op b a with
      | none => .raised (.divisionByZero u.thisIndex) u
      | some v => stackPush v u

/-- 42_stack.md R135. -/
def execStackAdd (s : State) : Host.Outcome State Fault Refusal :=
  (stackBinary (fun b a => some (aluAdd b a)) s).finish

/-- 42_stack.md R136. -/
def execStackSub (s : State) : Host.Outcome State Fault Refusal :=
  (stackBinary (fun b a => some (aluSub b a)) s).finish

/-- 42_stack.md R137. -/
def execStackMul (s : State) : Host.Outcome State Fault Refusal :=
  (stackBinary (fun b a => some (aluMul b a)) s).finish

/-- 42_stack.md R138. -/
def execStackDiv (s : State) : Host.Outcome State Fault Refusal :=
  (stackBinary aluDiv s).finish

end Sys2Proof.Machine
end

