-- ==== Sys2Proof/Machine/Syscall.lean ====
section
/-!
DEFINITION. The syscall dispatcher (45_syscall.md R180 to R188) and its host transactions. The host's answer to its
n-th request of a kind is the scripted one, and beyond the script a free value of Config (log entry 7).
-/

namespace Sys2Proof.Machine

/-- The host's answer to its `n`-th line request. -/
def HostPort.lineAnswer (h : HostPort) (n : Nat) : HostLine := h.lines[n]?.getD (Config.hostLine n)

/-- The host's answer to the `n`-th word written. -/
def HostPort.ackAnswer (h : HostPort) (n : Nat) : HostAck := h.acks[n]?.getD (Config.hostAck n)

/-- The answer the next line request gets. -/
def State.nextLine (s : State) : HostLine := s.host.lineAnswer s.host.lineReqs

/-- The answer the next word written gets. -/
def State.nextAck (s : State) : HostAck := s.host.ackAnswer s.host.writeReqs

/-- `HostReadLine()` (45_syscall.md R188): a failure raises HostIo (60_exceptions.md R209). -/
def hostReadLine (s : State) : Res (List Byte) :=
  let t := { s with host := { s.host with lineReqs := s.host.lineReqs + 1 } }
  match s.nextLine with
  | .line bytes => .ok bytes t
  | .fail => .raised .hostIo t
  | .silent => .hang

/-- The state with one more word sent, and the host's verdict on it. -/
def State.recordSent (s : State) (w : Word) (accepted : Bool) : State :=
  { s with host := { s.host with writeReqs := s.host.writeReqs + 1, sent := s.host.sent ++ [⟨w, accepted⟩] } }

/-- `HostWrite(w)` (45_syscall.md R188): the word goes out whole; a failure raises HostIo. -/
def hostWrite (w : Word) (s : State) : Res Unit :=
  match s.nextAck with
  | .ok => .ok () (s.recordSent w true)
  | .fail => .raised .hostIo (s.recordSent w false)
  | .silent => .hang

/-- The loop of Syscall 1: each byte through StackPush, zero-extended (45_syscall.md R184). -/
def storeBytes : List Byte → State → Res Unit
  | [], s => .ok () s
  | b :: rest, s => (stackPush (byteWord b) s).bind fun _ t => storeBytes rest t

/-- `ReadLine(c, n)` (45_syscall.md R184): SP is redirected to `c` and restored after the last byte, so an overflow
leaves it redirected (70_reset_and_hazards.md R230). -/
def readLine (c n : Word) (s : State) : Res Unit :=
  let s0 := s.readReg .sp
  (hostReadLine s).bind fun bytes t =>
    (storeBytes (bytes.take n.toNat) (t.writeReg .sp c)).bind fun _ u => .ok () (u.writeReg .sp s0)

/-- The loop of Syscall 2 from address `a`, an exact integer, for `n` words (45_syscall.md R185). -/
def writeWords (a : Nat) : Nat → State → Res Unit
  | 0, s => .ok () s
  | n + 1, s =>
    match s.data.read a with
    | none => .raised (.memoryRead a) s
    | some w => (hostWrite w s).bind fun _ t => writeWords (a + 1) n t

/-- `Syscall`: dispatch on all 32 bits of A (45_syscall.md R180). Selector 0 ends the run with B as exit code (R181). -/
def execSyscall (s : State) : Host.Outcome State Fault Refusal :=
  match (s.readReg .a).toNat with
  | 0 => .next { s with status := .exited (s.readReg .b) }
  | 1 => (readLine (s.readReg .c) (s.readReg .d) s).finish
  | 2 => (writeWords (s.readReg .c).toNat (s.readReg .d).toNat s).finish
  | _ => .next (s.raise (.unimplementedSyscall (s.readReg .a)))

end Sys2Proof.Machine
end

