-- ==== Sys2Proof/Machine/Dispatch.lean ====
section
/-!
DEFINITION. Dispatch (40_step.md R96): the meaning of each instruction in Running, in the state after fetch.
-/

namespace Sys2Proof.Machine

def exec (i : Instr) (s : State) : Host.Outcome State Fault Refusal :=
  match i with
  | .add r1 r2 r3 => Sys2Proof.Machine.execAdd r1 r2 r3 s
  | .sub r1 r2 r3 => Sys2Proof.Machine.execSub r1 r2 r3 s
  | .mul r1 r2 r3 => Sys2Proof.Machine.execMul r1 r2 r3 s
  | .div r1 r2 r3 => Sys2Proof.Machine.execDiv r1 r2 r3 s
  | .imm r1 k => Sys2Proof.Machine.execImm r1 k s
  | .push r1 => Sys2Proof.Machine.execPush r1 s
  | .pop r1 => Sys2Proof.Machine.execPop r1 s
  | .stackAdd => Sys2Proof.Machine.execStackAdd s
  | .stackSub => Sys2Proof.Machine.execStackSub s
  | .stackMul => Sys2Proof.Machine.execStackMul s
  | .stackDiv => Sys2Proof.Machine.execStackDiv s
  | .cmp r1 r2 => Sys2Proof.Machine.execCmp r1 r2 s
  | .jmp k => Sys2Proof.Machine.execJmp k s
  | .je k => Sys2Proof.Machine.execJe k s
  | .jne k => Sys2Proof.Machine.execJne k s
  | .jg k => Sys2Proof.Machine.execJg k s
  | .jge k => Sys2Proof.Machine.execJge k s
  | .jl k => Sys2Proof.Machine.execJl k s
  | .jle k => Sys2Proof.Machine.execJle k s
  | .jz k => Sys2Proof.Machine.execJz k s
  | .jnz k => Sys2Proof.Machine.execJnz k s
  | .ret => Sys2Proof.Machine.execRet s
  | .call k => Sys2Proof.Machine.execCall k s
  | .fn => Sys2Proof.Machine.execFn s
  | .syscall => Sys2Proof.Machine.execSyscall s

end Sys2Proof.Machine
end

