-- ==== Sys2Proof/Machine/Step.lean ====
section
/-!
DEFINITION. The step of the machine (40_step.md R91), and the host's way to place the next instruction.
-/

namespace Sys2Proof.Machine

/-- The step under any tag map `OPCODE_TAG` (30_encoding.md R69). -/
def stepWith (tag : TagMap) (s : State) : Host.Outcome State Fault Refusal := cycle tag exec s

/-- The step under the default tags (log entry 10). -/
def step (s : State) : Host.Outcome State Fault Refusal := stepWith Config.opcodeTag s

/-- `s` with a table word where the next step fetches, so that the step runs it (log entry 4). -/
def State.withFetchWord (s : State) (nbits w : Nat) : State := s.placeWord (tableWord nbits w)

end Sys2Proof.Machine
end

