-- ==== Sys2Proof/Machine/Boundary.lean ====
section
/-!
DEFINITION. The block's interfaces besides the step (00_scope.md R8): construction (40_step.md R103), the step's result
(R90, R99), the diagnostic dump (R102), the instruction store's range read (20_memory.md R44), the text rendering
(30_encoding.md R78), and the two boundary formats, literal texts (R76) and persisted words (R79).
-/

namespace Sys2Proof.Machine

/-! ### Construction -/

/-- The cells of a sequence of words starting at address `a`. -/
def cellsOf : Nat → List Word → List (Nat × Word)
  | _, [] => []
  | a, w :: rest => if w = Config.unlistedWord then cellsOf (a + 1) rest else (a, w) :: cellsOf (a + 1) rest

/-- The data memory holding exactly the words of `DATA_INIT` (10_state.md R32). -/
def Memory.ofWords (words : List Word) : Memory := { capacity := words.length, cells := cellsOf 0 words }

/-- The machine constructed from `PROGRAM`, a data memory, and the host's scripted answers (40_step.md R103; 10_state.md
R34; parameter HOST of 00_scope.md R9). The program is not validated. -/
def State.construct (program : List Word) (data : Memory) (lines : List HostLine) (acks : List HostAck) : State where
  regs := RegFile.zeroed
  mode := .running
  status := .live
  prog := program
  data := data
  host := { HostPort.fresh with lines := lines, acks := acks }

/-! ### Step result -/

/-- What a step returns to the driver (40_step.md R90). -/
inductive StepResult where
  | continues
  | exit (code : Word)
  | error (e : Error)
deriving DecidableEq, Repr

/-- The result of the step that ended in `s` (40_step.md R99, R100). -/
def State.result (s : State) : StepResult :=
  match s.status with
  | .live => .continues
  | .exited code => .exit code
  | .faulted e => .error e

/-! ### Dump and range read -/

/-- The diagnostic dump: the registers in index order and the stack contents (40_step.md R102). -/
structure Dump where
  registers : List Word
  stack : List Word
deriving DecidableEq, Repr

/-- All registers in index order. -/
def allRegs : List Reg := [.sp, .pc, .flag, .zero, .a, .b, .c, .d]

/-- Reading the dump changes no state (40_step.md R102; 92_eei_decisions.md D19). -/
def State.dump (s : State) : Dump where
  registers := allRegs.map s.readReg
  stack := (List.range (min (s.readReg .sp).toNat s.data.capacity)).map (cellsGet s.data.cells)

/-- `IReadRange(s, n)` (20_memory.md R44; 92_eei_decisions.md D18). -/
def State.iReadRange (s : State) (start n : Nat) : Option (List Word) :=
  if start + n > s.prog.length then none else some ((s.prog.drop start).take n)

/-! ### Text rendering (30_encoding.md R78) -/

/-- The operands of an instruction as texts, in the order of 30_encoding.md R67. -/
def operandTexts (sp : Spelling) (i : Instr) : List String :=
  match i with
  | .add r1 r2 r3 | .sub r1 r2 r3 | .mul r1 r2 r3 | .div r1 r2 r3 => [sp.register r1, sp.register r2, sp.register r3]
  | .imm r1 k => [sp.register r1, toString k]
  | .push r1 | .pop r1 => [sp.register r1]
  | .cmp r1 r2 => [sp.register r1, sp.register r2]
  | .jmp k | .je k | .jne k | .jg k | .jge k | .jl k | .jle k | .jz k | .jnz k | .call k => [toString k]
  | .stackAdd | .stackSub | .stackMul | .stackDiv | .ret | .fn | .syscall => []

/-- `render(op)` in a spelling: the mnemonic, then one space and an operand each. -/
def renderWith (sp : Spelling) (i : Instr) : String :=
  String.intercalate " " (sp.mnemonic i.mnemonic :: operandTexts sp i)

/-- `render(op)` in the source's spelling (log entry 12). -/
def render (i : Instr) : String := renderWith Config.spelling i

/-! ### Literal texts (30_encoding.md R76)

A text is read with white space, one sign and upper-case hex digits allowed for. If that reading has a character that is no
digit of the base, the text does not parse, whatever the points left open. Otherwise a text spelled plainly has the reading's
value, and one spelled in a way the spec leaves open has it or does not parse (91_not_in_source.md N12; log entry 13). -/

/-- White space: the characters of the Unicode property White_Space, at any place in the text. N12 leaves "whitespace" open
and does not say which characters it is: PRESUMED, log entry 13. -/
def isWhite (ch : Char) : Bool :=
  let n := ch.toNat
  (9 ≤ n && n ≤ 13) || n == 0x20 || n == 0x85 || n == 0xA0 || n == 0x1680 || (0x2000 ≤ n && n ≤ 0x200A)
    || n == 0x2028 || n == 0x2029 || n == 0x202F || n == 0x205F || n == 0x3000

/-- An upper-case hex digit. -/
def isUpperDigit (ch : Char) : Bool := 'A' ≤ ch && ch ≤ 'F'

/-- The value of a digit character, if it is one: an ASCII character (log entry 13). -/
def digitValue (ch : Char) : Option Nat :=
  if '0' ≤ ch ∧ ch ≤ '9' then some (ch.toNat - '0'.toNat)
  else if 'a' ≤ ch ∧ ch ≤ 'f' then some (ch.toNat - 'a'.toNat + 10)
  else if isUpperDigit ch then some (ch.toNat - 'A'.toNat + 10)
  else none

/-- The value of a sequence of digits of a base, most significant first, none if one is no digit of the base. -/
def digitsValue (base : Nat) : Nat → List Char → Option Nat
  | acc, [] => some acc
  | acc, ch :: rest =>
    match digitValue ch with
    | some d => if d < base then digitsValue base (base * acc + d) rest else none
    | none => none

/-- How a text is read: its base, whether it has a minus sign, and the characters that must be digits. -/
structure LitReading where
  base : Nat
  negative : Bool
  digits : List Char
deriving DecidableEq, Repr

/-- A leading sign, if there is one (true for minus), and what follows it. -/
def takeSign (text : List Char) : Option Bool × List Char :=
  match text with
  | '+' :: rest => (some false, rest)
  | '-' :: rest => (some true, rest)
  | rest => (none, rest)

/-- The base a text's prefix selects, "`#` = hex, `$` = binary, no prefix = decimal", and what follows it. -/
def takeBase (text : List Char) : Nat × List Char :=
  match text with
  | '#' :: rest => (16, rest)
  | '$' :: rest => (2, rest)
  | rest => (10, rest)

/-- The reading of a text: white space dropped, one sign before or after the prefix. A second sign is left among the digits. -/
def readText (text : List Char) : LitReading :=
  let (first, rest) := takeSign (text.filter fun ch => !isWhite ch)
  let (base, body) := takeBase rest
  match first with
  | some negative => { base := base, negative := negative, digits := body }
  | none =>
    let (second, digits) := takeSign body
    { base := base, negative := second.getD false, digits := digits }

/-- The prefix that selects a base. -/
def basePrefix (base : Nat) : List Char :=
  if base = 16 then ['#'] else if base = 2 then ['$'] else []

/-- Whether a number has a leading zero. -/
def leadingZero (digits : List Char) : Bool :=
  match digits with
  | ch :: rest => ch == '0' && !rest.isEmpty
  | [] => false

/-- Whether a text is more than its prefix and digits, or these have an upper-case digit or a leading zero. -/
def isOpenSpelling (text : List Char) (r : LitReading) : Bool :=
  text != basePrefix r.base ++ r.digits || r.digits.any isUpperDigit || leadingZero r.digits

/-- The answer for a text that has no digit: a free value; a value stays in the literal's range (R75; log entry 13). -/
def parseEmpty (text : List Char) : LitParse :=
  match Config.openParse text with
  | .value k => .value (k % (maxLiteral + 1))
  | .tooBig => .tooBig
  | .invalidDigit => .invalidDigit

/-- A failure whose kind is left open (log entry 13). -/
def openFailure (text : List Char) : LitParse := if Config.failsTooBig text then .tooBig else .invalidDigit

/-- The answer for a text read as the number `v`, negated if `negative`: a Bit13Literal is at least 0 (R75), and which error a
number below 0 or beyond 32 bits gives is left open (N12; log entry 13). -/
def parseNumber (text : List Char) (negative : Bool) (v : Nat) : LitParse :=
  if negative = true ∧ v ≠ 0 then openFailure text
  else if v ≤ maxLiteral then .value v
  else if v < 2 ^ 32 then .tooBig
  else openFailure text

/-- The answer for a text with a given reading. -/
def parseReading (text : List Char) (r : LitReading) : LitParse :=
  if r.digits = [] then parseEmpty text
  else
    match digitsValue r.base 0 r.digits with
    | none => .invalidDigit
    | some v =>
      if isOpenSpelling text r && !Config.acceptsOpenText text then .invalidDigit else parseNumber text r.negative v

/-- Parse a literal "with a base prefix" (30_encoding.md R76). -/
def parseLiteral (text : String) : LitParse := parseReading text.toList (readText text.toList)

/-! ### Persisted words (30_encoding.md R79) -/

/-- The eight hex digits of a word's persisted token in their order: the reverse of the big-endian rendering. -/
def persistDigits (w : Word) : List (BitVec 4) :=
  (List.range 8).map fun n => w.extractLsb' (4 * n) 4

/-- The token, given how a digit is written (91_not_in_source.md N13; log entry 14). -/
def persistToken (digit : BitVec 4 → Char) (w : Word) : String := String.ofList ((persistDigits w).map digit)

/-- The word of a persisted token's digits. -/
def ofPersistDigits : List (BitVec 4) → Word
  | [] => 0
  | d :: rest => d.zeroExtend 32 ||| ofPersistDigits rest <<< 4

end Sys2Proof.Machine
end

