-- ==== Sys2Proof/Safety.lean ====
section
/-!
DEFINITION. The terms claims use: the invariant of the state, what an instruction may change (10_state.md R21;
20_memory.md R45), and what a safe run is.
-/

namespace Sys2Proof.Machine

/-- The invariant: the data memory is in canonical form, and both memories fit the address space (00_scope.md R9). -/
def State.Inv (s : State) : Prop :=
  s.data.wf = true ∧ s.data.capacity ≤ Config.maxWords ∧ s.prog.length ≤ Config.maxWords

/-- Nothing but the registers `regs` and the data words `words` differs between `s` and `t`. -/
structure Frame (regs : List Reg) (words : List Nat) (s t : State) : Prop where
  regs_kept : ∀ r, r ∉ regs → t.readReg r = s.readReg r
  words_kept : ∀ a, a ∉ words → t.data.read a = s.data.read a
  capacity_kept : t.data.capacity = s.data.capacity
  mode_kept : t.mode = s.mode
  status_kept : t.status = s.status
  prog_kept : t.prog = s.prog
  host_kept : t.host = s.host

/-- The registers an instruction may write in Running, besides the advance of PC (10_state.md R21). -/
def writtenRegs : Instr → List Reg
  | .add _ _ r3 | .sub _ _ r3 | .mul _ _ r3 | .div _ _ r3 => [r3]
  | .imm r1 _ => [r1]
  | .push _ => [.sp]
  | .pop r1 => [.sp, r1]
  | .stackAdd | .stackSub | .stackMul | .stackDiv => [.sp]
  | .cmp _ _ => [.flag]
  | .jmp _ | .je _ | .jne _ | .jg _ | .jge _ | .jl _ | .jle _ | .jz _ | .jnz _ => [.pc]
  | .ret | .call _ => [.sp, .pc]
  | .fn => []
  | .syscall => [.sp]

/-- Whether an instruction, run in `s`, may write the data word at `a` (20_memory.md R45). -/
def mayStore (i : Instr) (s : State) (a : Nat) : Prop :=
  match i with
  | .push _ | .call _ => a = (s.readReg .sp).toNat
  | .stackAdd | .stackSub | .stackMul | .stackDiv => a + 2 = (s.readReg .sp).toNat
  | .syscall =>
    (s.readReg .a).toNat = 1 ∧ (s.readReg .c).toNat ≤ a ∧ a < (s.readReg .c).toNat + (s.readReg .d).toNat
  | .add _ _ _ | .sub _ _ _ | .mul _ _ _ | .div _ _ _ | .imm _ _ | .pop _ | .cmp _ _ | .jmp _ | .je _ | .jne _
  | .jg _ | .jge _ | .jl _ | .jle _ | .jz _ | .jnz _ | .ret | .fn => False

/-- Execute a list of instructions one after another in Running, each on the state the one before left. Nothing is fetched
between them, so PC does not advance as it does in a run of steps. -/
def execAll : List Instr → State → Host.Outcome State Fault Refusal
  | [], s => .next s
  | i :: rest, s =>
    match exec i s with
    | .next t => if t.status = .live then execAll rest t else .next t
    | .fault f => .fault f
    | .refused r => .refused r

/-- The instruction the next step decodes under a tag map, if it fetches a word with a known tag. -/
def State.decodesTo (tag : TagMap) (s : State) (i : Instr) : Prop :=
  ∃ w, s.fetch = some w ∧ decodeWith tag w = .op i

/-- `n` steps one after another under a tag map, ending early at a stop (40_step.md R91). -/
def runStepsWith (tag : TagMap) : Nat → State → Host.Outcome State Fault Refusal
  | 0, s => .next s
  | n + 1, s =>
    match stepWith tag s with
    | .next t => runStepsWith tag n t
    | .fault f => .fault f
    | .refused r => .refused r

/-- `n` steps under the default tags (log entry 10). -/
def runSteps (n : Nat) (s : State) : Host.Outcome State Fault Refusal := runStepsWith Config.opcodeTag n s

/-- No error has ended the run. -/
def State.ErrorFree (s : State) : Prop := ∀ e, s.status ≠ .faulted e

/-- A run of `n` steps is safe: none of the states it passes is Faulted. -/
def SafeRun (n : Nat) (s : State) : Prop :=
  ∀ k, k ≤ n → ∀ t, runSteps k s = .next t → State.ErrorFree t

end Sys2Proof.Machine
end

