-- ==== Sys2Proof/Certificates/Slice0/Obligations.lean ====
section
/-!
DEFINITION. The statements for the provers. A statement about exec speaks of the state after fetch, in which PC is already
the index of the next word (40_step.md R93); StepRunsDecodedInstruction carries it to a step. Statements about stepWith hold
for every tag map `OPCODE_TAG`; step is stepWith at the default tags. Premise `s.Inv` rules out states no construction gives
(a data memory not in canonical form or larger than the address space); StepKeepsInvariant states that every step keeps it.
-/

open Sys2Proof Sys2Proof.Machine

/-! ### The codec (30_encoding.md) -/

/-- The round-trip law of 30_encoding.md section 4 (the first sentence of R72), for every injective tag map. -/
def Obligations.DecodeOfEncodeIsIdentity : Prop :=
  ∀ (tag : TagMap) (i : Instr), tag.Injective → i.wellFormed = true → decodeWith tag (encodeWith tag i) = .op i

/-- The converse holds exactly for words whose don't-care bits are 0, and every instruction is the decoding of two different
words, so decode is not injective, under every injective tag map (30_encoding.md section 4, the sentences of R72 marked
derived; 92_eei_decisions.md D4, log entry 11). -/
def Obligations.EncodeOfDecodeIffDontCareBitsZero : Prop :=
  (∀ (tag : TagMap) (w : Word) (i : Instr), decodeWith tag w = .op i →
    (encodeWith tag i = w ↔ w &&& i.mnemonic.shape.dontCare = 0)) ∧
  ∀ (tag : TagMap) (i : Instr), tag.Injective → i.wellFormed = true →
    ∃ v w : Word, v ≠ w ∧ decodeWith tag v = .op i ∧ decodeWith tag w = .op i

/-- Words that differ in don't-care bits only decode alike, and encode writes those bits as 0 (30_encoding.md section 2;
the spec's decisions D3 and D4, log entry 11). -/
def Obligations.DecodeIgnoresDontCareBits : Prop :=
  (∀ (tag : TagMap) (v w : Word) (i : Instr), decodeWith tag v = .op i →
    (v ^^^ w) &&& ~~~ i.mnemonic.shape.dontCare = 0 → decodeWith tag w = .op i) ∧
  ∀ (tag : TagMap) (i : Instr), i.wellFormed = true → encodeWith tag i &&& i.mnemonic.shape.dontCare = 0

/-- Decode is a total function into Opcode or DecodeFault that reads each operand from its bit field
(30_encoding.md R70, with the fields of R61 as quotients and remainders). -/
def Obligations.DecodeExtractsFields : Prop :=
  ∀ (tag : TagMap) (w : Word),
    match decodeWith tag w with
    | .fault t => t.toNat = w.toNat % 256 ∧ ∀ m, tag m ≠ t
    | .op i =>
      (tag i.mnemonic).toNat = w.toNat % 256 ∧
      match i with
      | .add r1 r2 r3 | .sub r1 r2 r3 | .mul r1 r2 r3 | .div r1 r2 r3 =>
        r1.idx.toNat = w.toNat / 2 ^ 8 % 8 ∧ r2.idx.toNat = w.toNat / 2 ^ 11 % 8 ∧ r3.idx.toNat = w.toNat / 2 ^ 14 % 8
      | .cmp r1 r2 => r1.idx.toNat = w.toNat / 2 ^ 8 % 8 ∧ r2.idx.toNat = w.toNat / 2 ^ 11 % 8
      | .push r1 | .pop r1 => r1.idx.toNat = w.toNat / 2 ^ 8 % 8
      | .imm r1 k => r1.idx.toNat = w.toNat / 2 ^ 8 % 8 ∧ k = w.toNat / 2 ^ 11 % 2 ^ 13
      | .jmp k | .je k | .jne k | .jg k | .jge k | .jl k | .jle k | .jz k | .jnz k | .call k =>
        k = w.toNat / 2 ^ 11 % 2 ^ 13
      | .stackAdd | .stackSub | .stackMul | .stackDiv | .ret | .fn | .syscall => True

/-- Encode composes the tag and the operands, every other bit 0 (30_encoding.md R71; the fields are disjoint, so their
union is their sum). -/
def Obligations.EncodeComposesFields : Prop :=
  ∀ (tag : TagMap) (i : Instr), i.wellFormed = true →
    (encodeWith tag i).toNat = (tag i.mnemonic).toNat +
      match i with
      | .add r1 r2 r3 | .sub r1 r2 r3 | .mul r1 r2 r3 | .div r1 r2 r3 =>
        r1.idx.toNat * 2 ^ 8 + r2.idx.toNat * 2 ^ 11 + r3.idx.toNat * 2 ^ 14
      | .cmp r1 r2 => r1.idx.toNat * 2 ^ 8 + r2.idx.toNat * 2 ^ 11
      | .push r1 | .pop r1 => r1.idx.toNat * 2 ^ 8
      | .imm r1 k => r1.idx.toNat * 2 ^ 8 + k * 2 ^ 11
      | .jmp k | .je k | .jne k | .jg k | .jge k | .jl k | .jle k | .jz k | .jnz k | .call k => k * 2 ^ 11
      | .stackAdd | .stackSub | .stackMul | .stackDiv | .ret | .fn | .syscall => 0

/-- Every 3-bit field value names the register of its index (30_encoding.md R62). -/
def Obligations.RegisterFieldsNameEveryRegister : Prop :=
  (Reg.ofIdx 0 = .sp ∧ Reg.ofIdx 1 = .pc ∧ Reg.ofIdx 2 = .flag ∧ Reg.ofIdx 3 = .zero ∧
    Reg.ofIdx 4 = .a ∧ Reg.ofIdx 5 = .b ∧ Reg.ofIdx 6 = .c ∧ Reg.ofIdx 7 = .d) ∧
  ∀ n : BitVec 3, (Reg.ofIdx n).idx = n

/-- Under the default tags the illegal words are those of the tags 0x19 to 0xFF, 231 values (30_encoding.md section 4;
the default tags are the spec's decision D2, log entry 10). -/
def Obligations.IllegalWordsUnderDefaultTags : Prop :=
  (∀ w : Word, (∃ t, decode w = .fault t) ↔ 0x19 ≤ w.toNat % 256) ∧
  ((List.range 256).filter fun t => (mnemonicOf Config.opcodeTag (BitVec.ofNat 8 t)).isNone).length = 231

/-- Words written out from the spec's encodings, one of each shape and family (95_test_vectors.md X1; default tags, D2). -/
def Obligations.SpecWordsDecode : Prop :=
  decode 0x0001AC00 = .op (.add .a .b .c) ∧ decode 0x00FFFF04 = .op (.imm .d 8191) ∧
  decode 0x00000506 = .op (.pop .b) ∧ decode 0x0000000A = .op .stackDiv ∧ decode 0x00002C0B = .op (.cmp .a .b) ∧
  decode 0x0000380D = .op (.je 7) ∧ decode 0x00000016 = .op (.call 0) ∧ decode 0x00000018 = .op .syscall

/-! ### The step (40_step.md) -/

/-- When the word at PC decodes to an instruction, a step in Running is that instruction's execution in the state whose PC
has moved past the word (40_step.md section 2). -/
def Obligations.StepRunsDecodedInstruction : Prop :=
  (∀ s : State, step s = stepWith Config.opcodeTag s) ∧
  ∀ (tag : TagMap) (s : State) (w : Word) (i : Instr), s.status = .live → s.mode = .running →
    s.prog[(s.readReg .pc).toNat]? = some w → decodeWith tag w = .op i →
    stepWith tag s = exec i (s.writeReg .pc (s.readReg .pc + 1))

/-- The whole cycle: fetch, advance PC, decode, skip or execute (40_step.md R91). -/
def Obligations.StepFollowsTheCycle : Prop :=
  ∀ (tag : TagMap) (s : State), s.status = .live →
    (s.prog.length ≤ (s.readReg .pc).toNat → stepWith tag s = .next (s.raise (.noNextInstruction (s.readReg .pc)))) ∧
    ∀ w, s.prog[(s.readReg .pc).toNat]? = some w →
      let t := s.writeReg .pc (s.readReg .pc + 1)
      (∀ x, decodeWith tag w = .fault x → stepWith tag s = .next (t.raise (.unknownOpcode x))) ∧
      (∀ i, decodeWith tag w = .op i → s.mode = .skippingBody →
        stepWith tag s = .next (if i = .ret then { t with mode := .running } else t)) ∧
      ∀ i, decodeWith tag w = .op i → s.mode = .running → stepWith tag s = exec i t

/-- NoNextInstruction: raised exactly by a fetch at or past the end, in either mode, with nothing changed
(60_exceptions.md R206). -/
def Obligations.FetchPastTheEndEndsTheRun : Prop :=
  ∀ (tag : TagMap) (s : State), s.status = .live →
    (s.prog.length ≤ (s.readReg .pc).toNat →
      stepWith tag s = .next { s with status := .faulted (.noNextInstruction (s.readReg .pc)) }) ∧
    (∀ t p, stepWith tag s = .next t → t.status = .faulted (.noNextInstruction p) →
      s.prog.length ≤ (s.readReg .pc).toNat) ∧
    (Error.noNextInstruction (s.readReg .pc)).recoverable = true

/-- UnknownOpcode: raised exactly when the fetched word's low byte is no tag, in either mode, with PC already advanced
(60_exceptions.md R201). -/
def Obligations.UnknownOpcodeRaisedInEitherMode : Prop :=
  ∀ (tag : TagMap) (s : State) (w : Word), s.status = .live → s.prog[(s.readReg .pc).toNat]? = some w →
    ((∀ m, (tag m).toNat ≠ w.toNat % 256) →
      stepWith tag s = .next { s.writeReg .pc (s.readReg .pc + 1) with
        status := .faulted (.unknownOpcode (BitVec.ofNat 8 (w.toNat % 256))) }) ∧
    (∀ t x, stepWith tag s = .next t → t.status = .faulted (.unknownOpcode x) →
      x.toNat = w.toNat % 256 ∧ ∀ m, tag m ≠ x) ∧
    ∀ x, (Error.unknownOpcode x).recoverable = false

/-- The skip filter (40_step.md R95): in SkippingBody a step changes PC only, and for Ret the mode. -/
def Obligations.SkippedInstructionIsInert : Prop :=
  ∀ (tag : TagMap) (s : State) (w : Word) (i : Instr), s.status = .live → s.mode = .skippingBody →
    s.prog[(s.readReg .pc).toNat]? = some w → decodeWith tag w = .op i →
    ∃ t, stepWith tag s = .next t ∧ t.mode = (if i = .ret then .running else .skippingBody) ∧
      t.readReg .pc = s.readReg .pc + 1 ∧ (∀ r, r ≠ .pc → t.readReg r = s.readReg r) ∧
      t.data = s.data ∧ t.prog = s.prog ∧ t.host = s.host ∧ t.status = .live

/-- A machine that has exited or faulted takes no step (40_step.md section 2; the spec's decision D9; the refusal is the model's
form of it, log entry 6). -/
def Obligations.EndedRunTakesNoStep : Prop :=
  ∀ (tag : TagMap) (s : State), s.status ≠ .live → stepWith tag s = .refused .notLive

/-- The table of engine states (40_step.md R101): a Live step that answers takes one row of it, and every end of a run is
terminal. -/
def Obligations.EngineStateTransitions : Prop :=
  ∀ (tag : TagMap) (s t : State), s.status = .live → stepWith tag s = .next t →
    ((s.fetch = none ∧ t.status = .faulted (.noNextInstruction (s.readReg .pc)) ∧ t.mode = s.mode) ∨
    (∃ w x, s.fetch = some w ∧ decodeWith tag w = .fault x ∧ t.status = .faulted (.unknownOpcode x) ∧ t.mode = s.mode) ∨
    (∃ i, s.decodesTo tag i ∧
      ((s.mode = .running ∧ i = .fn ∧ t.status = .live ∧ t.mode = .skippingBody) ∨
       (s.mode = .running ∧ i = .syscall ∧ (s.readReg .a).toNat = 0 ∧ t.status = .exited (s.readReg .b) ∧
         t.mode = .running) ∨
       (s.mode = .running ∧ i ≠ .fn ∧ ¬ (i = .syscall ∧ (s.readReg .a).toNat = 0) ∧ t.mode = .running ∧
         (t.status = .live ∨ ∃ e, t.status = .faulted e)) ∨
       (s.mode = .skippingBody ∧ i = .ret ∧ t.status = .live ∧ t.mode = .running) ∨
       (s.mode = .skippingBody ∧ i ≠ .ret ∧ t.status = .live ∧ t.mode = .skippingBody)))) ∧
    (t.status ≠ .live → ∀ u, stepWith tag t ≠ .next u)

/-- The engine mode (10_state.md R28): Running after construction, reached by no register read or write, set to
SkippingBody by an Fn executed in Running and to Running by a Ret fetched in SkippingBody, and changed by nothing else. -/
def Obligations.ModeChangesOnlyAtFnAndRet : Prop :=
  (∀ p d ls ks, (State.construct p d ls ks).mode = .running) ∧
  (∀ (s : State) m r v, (s.writeReg r v).mode = s.mode ∧ ({ s with mode := m } : State).readReg r = s.readReg r) ∧
  ∀ (tag : TagMap) (s t : State), stepWith tag s = .next t →
    (s.mode = .running → (t.mode = .skippingBody ↔ s.decodesTo tag .fn)) ∧
    (s.mode = .skippingBody → (t.mode = .running ↔ s.decodesTo tag .ret) ∧
      ∀ i, s.decodesTo tag i → (∀ r, r ≠ .pc → t.readReg r = s.readReg r) ∧ t.data = s.data ∧ t.host = s.host)

/-- Syscall 0 (45_syscall.md R181): it returns Exit(x[B]) and changes nothing else, the run is over, and nothing else
produces an Exit. -/
def Obligations.ExitOnlyBySyscallZero : Prop :=
  (∀ s : State, (s.readReg .a).toNat = 0 → exec .syscall s = .next { s with status := .exited (s.readReg .b) }) ∧
  (∀ (tag : TagMap) (s t : State) c, s.status = .exited c → stepWith tag s ≠ .next t) ∧
  ∀ (tag : TagMap) (s t : State) c, stepWith tag s = .next t → t.status = .exited c →
    s.mode = .running ∧ s.decodesTo tag .syscall ∧ (s.readReg .a).toNat = 0 ∧ c = s.readReg .b

/-- The instruction store (10_state.md R31): fixed at construction from PROGRAM, and no step writes it. -/
def Obligations.InstructionStoreIsImmutable : Prop :=
  (∀ p d ls ks, (State.construct p d ls ks).prog = p) ∧
  ∀ (tag : TagMap) (s t : State), stepWith tag s = .next t → t.prog = s.prog

/-- Every step keeps the data memory in canonical form and both memories inside the address space (00_scope.md section 4;
the canonical form is the model's choice, log entry 1). -/
def Obligations.StepKeepsInvariant : Prop :=
  (∀ s t : State, s.Inv → step s = .next t → t.Inv) ∧
  ∀ (tag : TagMap) (s t : State), s.Inv → stepWith tag s = .next t → t.Inv

/-- The reset state meets the invariant (the reset's memory and program are the model's choice, log entries 2, 3, 4). -/
def Obligations.ResetMeetsInvariant : Prop := State.reset.Inv

/-- Construction (10_state.md section 8): registers 0, Running, Live, the program in place, every data word as DATA_INIT
gives it, and the invariant if both memories fit the address space (bounds: the spec's decision D17). -/
def Obligations.ConstructionGivesInitialState : Prop :=
  ∀ (program words : List Word) (lines : List HostLine) (acks : List HostAck),
    let s := State.construct program (Memory.ofWords words) lines acks
    (∀ r, s.readReg r = 0) ∧ s.mode = .running ∧ s.status = .live ∧ s.prog = program ∧
    s.data.capacity = words.length ∧ (∀ a, s.data.read a = words[a]?) ∧
    (program.length ≤ 2 ^ 32 → words.length ≤ 2 ^ 32 → s.Inv)

/-! ### What an instruction may change -/

/-- A register outside the instruction's row of the table of 10_state.md section 1 keeps its value, whichever way the
instruction ends. -/
def Obligations.RegistersChangeOnlyAsTabled : Prop :=
  ∀ (i : Instr) (s t : State) (r : Reg), exec i s = .next t → r ∉ writtenRegs i → t.readReg r = s.readReg r

/-- Over a step: a register other than PC, the Flag register among them, changes only if the decoded instruction, run in
Running, names it as a destination or updates it itself (10_state.md sections 1 and 2). -/
def Obligations.StepChangesRegistersOnlyByWriter : Prop :=
  ∀ (tag : TagMap) (s t : State) (r : Reg), stepWith tag s = .next t → r ≠ .pc → t.readReg r ≠ s.readReg r →
    s.status = .live ∧ s.mode = .running ∧ ∃ i, s.decodesTo tag i ∧ r ∈ writtenRegs i

/-- A data word an instruction may not store to keeps its value, whichever way the instruction ends (20_memory.md
section 2). -/
def Obligations.DataWordsChangeOnlyAsTabled : Prop :=
  ∀ (i : Instr) (s t : State) (a : Nat), s.Inv → exec i s = .next t → ¬ mayStore i s a →
    t.data.read a = s.data.read a

/-- Program, memory size, mode, status and host after an instruction: only Fn writes the mode, only Syscall 1 and 2 touch
the host, and the status changes only by an error or by Syscall 0 (10_state.md sections 4 and 6; 45_syscall.md). -/
def Obligations.ModeStatusAndHostFrame : Prop :=
  ∀ (i : Instr) (s t : State), exec i s = .next t →
    t.prog = s.prog ∧ t.data.capacity = s.data.capacity ∧ (i ≠ .fn → t.mode = s.mode) ∧
    (¬ (i = .syscall ∧ ((s.readReg .a).toNat = 1 ∨ (s.readReg .a).toNat = 2)) → t.host = s.host) ∧
    (t.status = s.status ∨ (∃ e, t.status = .faulted e) ∨
      (i = .syscall ∧ (s.readReg .a).toNat = 0 ∧ t.status = .exited (s.readReg .b)))

/-- A Live step is never refused: it answers a next state, unless a Syscall 1 or 2 waits for a host that never answers
(40_step.md section 2; 45_syscall.md section 2; the form of the stop is the model's, log entry 8). -/
def Obligations.LiveStepAlwaysAnswers : Prop :=
  ∀ (tag : TagMap) (s : State), s.status = .live →
    (∃ t, stepWith tag s = .next t) ∨
    (stepWith tag s = .fault .hostSilent ∧ s.mode = .running ∧ s.decodesTo tag .syscall ∧
      ((s.readReg .a).toNat = 1 ∨ (s.readReg .a).toNat = 2))

/-- Each error kind is raised in execution only by the instructions the summary of 60_exceptions.md section 2 lists for it;
MemoryWrite by none. The kinds MemoryRead and HostIo are the spec's decisions D7 and D12, StackDiv's DivisionByZero its D23
(log entry 20); that DivisionByZero carries `pc - 1` modulo 2^32 in every state, PC 0 included, is DEDUCED: log entry 19. -/
def Obligations.ErrorsRaisedOnlyAsListed : Prop :=
  ∀ (i : Instr) (s t : State) (e : Error), s.status = .live → exec i s = .next t → t.status = .faulted e →
    match e with
    | .noNextInstruction _ | .memoryWrite _ | .unknownOpcode _ => False
    | .stackOverflow _ => (∃ r, i = .push r) ∨ (∃ k, i = .call k) ∨ (i = .syscall ∧ (s.readReg .a).toNat = 1)
    | .stackUnderflow _ => (∃ r, i = .pop r) ∨ i = .ret ∨ i ∈ [Instr.stackAdd, .stackSub, .stackMul, .stackDiv]
    | .memoryRead _ =>
      (∃ r, i = .pop r) ∨ i = .ret ∨ i ∈ [Instr.stackAdd, .stackSub, .stackMul, .stackDiv] ∨
        (i = .syscall ∧ (s.readReg .a).toNat = 2)
    | .hostIo => i = .syscall ∧ ((s.readReg .a).toNat = 1 ∨ (s.readReg .a).toNat = 2)
    | .divisionByZero n => n = s.readReg .pc - 1 ∧
        ((∃ r1 r2 r3, i = .div r1 r2 r3 ∧ s.readReg r2 = 0) ∨ i = .stackDiv)
    | .unimplementedSyscall x => i = .syscall ∧ x = s.readReg .a ∧ 2 < (s.readReg .a).toNat

/-! ### Register arithmetic and immediate load (41_arith_imm.md) -/

/-- Add: the sum modulo 2^32, for any registers, a destination that is also a source among them. -/
def Obligations.AddStoresSum : Prop :=
  ∀ (s : State) (r1 r2 r3 : Reg), ∃ t, exec (.add r1 r2 r3) s = .next t ∧
    (t.readReg r3).toNat = ((s.readReg r1).toNat + (s.readReg r2).toNat) % 2 ^ 32 ∧ Frame [r3] [] s t

/-- Sub: the difference modulo 2^32. -/
def Obligations.SubStoresDifference : Prop :=
  ∀ (s : State) (r1 r2 r3 : Reg), ∃ t, exec (.sub r1 r2 r3) s = .next t ∧
    (t.readReg r3).toNat = ((s.readReg r1).toNat + 2 ^ 32 - (s.readReg r2).toNat) % 2 ^ 32 ∧ Frame [r3] [] s t

/-- Mul: the low 32 bits of the product. -/
def Obligations.MulStoresLowProduct : Prop :=
  ∀ (s : State) (r1 r2 r3 : Reg), ∃ t, exec (.mul r1 r2 r3) s = .next t ∧
    (t.readReg r3).toNat = ((s.readReg r1).toNat * (s.readReg r2).toNat) % 2 ^ 32 ∧ Frame [r3] [] s t

/-- Div with a divisor that is not 0: the quotient rounded toward zero (the rounding is the spec's general knowledge G1). -/
def Obligations.DivStoresQuotient : Prop :=
  ∀ (s : State) (r1 r2 r3 : Reg), s.readReg r2 ≠ 0 → ∃ t, exec (.div r1 r2 r3) s = .next t ∧
    (t.readReg r3).toNat = (s.readReg r1).toNat / (s.readReg r2).toNat ∧ Frame [r3] [] s t

/-- A division by 0 raises DivisionByZero with the index of the dividing word: Div with nothing written, StackDiv after both
pops (StackDiv: the spec's decision D23; the state at the raise: D8, log entry 20). -/
def Obligations.DivisionByZeroIsRaised : Prop :=
  (∀ (s : State) (r1 r2 r3 : Reg), s.readReg r2 = 0 →
    exec (.div r1 r2 r3) s = .next { s with status := .faulted (.divisionByZero (s.readReg .pc - 1)) }) ∧
  ∀ s : State, 2 ≤ (s.readReg .sp).toNat → s.data.read ((s.readReg .sp).toNat - 1) = some 0 →
    exec .stackDiv s = .next { s.writeReg .sp (s.readReg .sp - 2) with
      status := .faulted (.divisionByZero (s.readReg .pc - 1)) }

/-- Imm: the literal, zero-extended, whole. -/
def Obligations.ImmLoadsLiteral : Prop :=
  ∀ (s : State) (r1 : Reg) (k : Nat), (Instr.imm r1 k).wellFormed = true → ∃ t, exec (.imm r1 k) s = .next t ∧
    (t.readReg r1).toNat = k ∧ Frame [r1] [] s t

/-! ### Stack instructions (42_stack.md) -/

/-- Push below the capacity: the register's value before SP moves goes to the word at SP, and SP rises by 1 (the bound is
the spec's decision D6). -/
def Obligations.PushStoresAtStackPointer : Prop :=
  ∀ (s : State) (r1 : Reg), s.Inv → (s.readReg .sp).toNat + 1 < s.data.capacity →
    ∃ t, exec (.push r1) s = .next t ∧
      t.data.read (s.readReg .sp).toNat = some (s.readReg r1) ∧
      (t.readReg .sp).toNat = (s.readReg .sp).toNat + 1 ∧ Frame [.sp] [(s.readReg .sp).toNat] s t

/-- Push and Call at or past the capacity raise StackOverflow with the SP checked; neither memory, SP nor PC changes (the
comparison is the spec's decision D6). -/
def Obligations.PushAndCallOverflow : Prop :=
  ∀ (s : State) (i : Instr), (∃ r, i = .push r) ∨ (∃ k, i = .call k) →
    s.data.capacity ≤ (s.readReg .sp).toNat + 1 →
    exec i s = .next { s with status := .faulted (.stackOverflow (s.readReg .sp)) }

/-- Pop with a readable top word: the destination gets it, and SP falls by 1; for `Pop SP` SP is the popped word. -/
def Obligations.PopLoadsTopWord : Prop :=
  ∀ (s : State) (r1 : Reg) (v : Word), 1 ≤ (s.readReg .sp).toNat →
    s.data.read ((s.readReg .sp).toNat - 1) = some v →
    ∃ t, exec (.pop r1) s = .next t ∧ t.readReg r1 = v ∧
      (r1 ≠ .sp → (t.readReg .sp).toNat = (s.readReg .sp).toNat - 1) ∧ Frame [.sp, r1] [] s t

/-- A pop from an empty stack raises StackUnderflow with nothing changed: Pop, Ret and the stack arithmetic. -/
def Obligations.PopFromEmptyStackUnderflows : Prop :=
  ∀ (s : State) (i : Instr),
    (∃ r, i = .pop r) ∨ i ∈ [Instr.ret, .stackAdd, .stackSub, .stackMul, .stackDiv] →
    (s.readReg .sp).toNat = 0 → exec i s = .next { s with status := .faulted (.stackUnderflow 0) }

/-- The other failing pops: a top word outside the data memory raises MemoryRead with SP already lowered, and stack
arithmetic on one word underflows at its second pop with SP at 0 (the kind MemoryRead is the spec's decision D7, the state
at the raise D8, log entry 20). -/
def Obligations.FailingPopsLeaveLoweredStackPointer : Prop :=
  (∀ (s : State) (i : Instr),
    (∃ r, i = .pop r) ∨ i ∈ [Instr.ret, .stackAdd, .stackSub, .stackMul, .stackDiv] →
    1 ≤ (s.readReg .sp).toNat → s.data.capacity ≤ (s.readReg .sp).toNat - 1 →
    exec i s = .next { s.writeReg .sp (s.readReg .sp - 1) with
      status := .faulted (.memoryRead ((s.readReg .sp).toNat - 1)) }) ∧
  ∀ (s : State) (i : Instr), i ∈ [Instr.stackAdd, .stackSub, .stackMul, .stackDiv] →
    (s.readReg .sp).toNat = 1 → 1 ≤ s.data.capacity →
    exec i s = .next { s.writeReg .sp 0 with status := .faulted (.stackUnderflow 0) }

/-- StackAdd, StackSub, StackMul: with top word `a` and `b` below it, the word below becomes `b op a` modulo 2^32 and SP
falls by 1; no other word changes, the old top word among them. -/
def Obligations.StackArithmeticCombinesTopWords : Prop :=
  ∀ (s : State) (a b : Word), s.Inv → 2 ≤ (s.readReg .sp).toNat →
    s.data.read ((s.readReg .sp).toNat - 1) = some a → s.data.read ((s.readReg .sp).toNat - 2) = some b →
    ∀ p ∈ [(Instr.stackAdd, (b.toNat + a.toNat) % 2 ^ 32), (.stackSub, (b.toNat + 2 ^ 32 - a.toNat) % 2 ^ 32),
        (.stackMul, (b.toNat * a.toNat) % 2 ^ 32)],
      ∃ t v, exec p.1 s = .next t ∧ t.data.read ((s.readReg .sp).toNat - 2) = some v ∧ v.toNat = p.2 ∧
        (t.readReg .sp).toNat = (s.readReg .sp).toNat - 1 ∧ Frame [.sp] [(s.readReg .sp).toNat - 2] s t

/-- StackDiv with a top word that is not 0: the word below becomes `b / a`. -/
def Obligations.StackDivStoresQuotient : Prop :=
  ∀ (s : State) (a b : Word), s.Inv → 2 ≤ (s.readReg .sp).toNat →
    s.data.read ((s.readReg .sp).toNat - 1) = some a → s.data.read ((s.readReg .sp).toNat - 2) = some b → a ≠ 0 →
    ∃ t v, exec .stackDiv s = .next t ∧ t.data.read ((s.readReg .sp).toNat - 2) = some v ∧
      v.toNat = b.toNat / a.toNat ∧ (t.readReg .sp).toNat = (s.readReg .sp).toNat - 1 ∧
      Frame [.sp] [(s.readReg .sp).toNat - 2] s t

/-! ### Compare and branch (43_compare_branch.md) -/

/-- Cmp: each of the five bits of Flag from the unsigned values of both registers before the write, every other bit 0. -/
def Obligations.CmpComputesFlags : Prop :=
  ∀ (s : State) (r1 r2 : Reg), ∃ t, exec (.cmp r1 r2) s = .next t ∧ Frame [.flag] [] s t ∧
    let a := (s.readReg r1).toNat
    let b := (s.readReg r2).toNat
    (t.readReg .flag).toNat = (if a = 0 then 1 else 0) + (if a < b then 2 else 0) + (if a > b then 4 else 0) +
      (if a = b then 8 else 0) + (if a ≠ b then 16 else 0)

/-- After Cmp exactly one of bits 1, 2 and 3 is set, bit 4 is the complement of bit 3, and Flag is one of five values
(43_compare_branch.md section 1; the list of values is marked derived there). -/
def Obligations.CmpFlagInvariants : Prop :=
  ∀ (s t : State) (r1 r2 : Reg), exec (.cmp r1 r2) s = .next t →
    let f := t.readReg .flag
    (f.getLsbD 1).toNat + (f.getLsbD 2).toNat + (f.getLsbD 3).toNat = 1 ∧ f.getLsbD 4 = !f.getLsbD 3 ∧
    f.toNat ∈ [8, 9, 18, 19, 20]

/-- Jmp and the eight conditional jumps: PC becomes the literal when the named Flag bits say so, and else stays at the next
word; Jge and Jle test two bits (conflict C4). -/
def Obligations.JumpsTestTheirFlagBits : Prop :=
  ∀ (s : State) (k : Nat), k ≤ 8191 →
    let f := s.readReg .flag
    ∀ p ∈ [(Instr.jmp k, true), (.je k, f.getLsbD 3), (.jne k, f.getLsbD 4), (.jg k, f.getLsbD 2),
        (.jge k, f.getLsbD 2 && f.getLsbD 3), (.jl k, f.getLsbD 1), (.jle k, f.getLsbD 1 && f.getLsbD 3),
        (.jz k, f.getLsbD 0), (.jnz k, !f.getLsbD 0)],
      ∃ t, exec p.1 s = .next t ∧ (t.readReg .pc).toNat = (if p.2 then k else (s.readReg .pc).toNat) ∧ Frame [.pc] [] s t

/-- The outcome table of 43_compare_branch.md section 3: after Cmp with values `a` and `b`, a jump on that Flag is taken as
the comparison says, and Jge and Jle never are. -/
def Obligations.BranchOutcomesAfterCmp : Prop :=
  ∀ (s t u : State) (r1 r2 : Reg) (k : Nat), exec (.cmp r1 r2) s = .next t → u.readReg .flag = t.readReg .flag →
    k ≤ 8191 →
    let a := (s.readReg r1).toNat
    let b := (s.readReg r2).toNat
    ∀ p ∈ [(Instr.je k, decide (a = b)), (.jne k, decide (a ≠ b)), (.jg k, decide (b < a)), (.jge k, false),
        (.jl k, decide (a < b)), (.jle k, false), (.jz k, decide (a = 0)), (.jnz k, decide (a ≠ 0))],
      ∃ v, exec p.1 u = .next v ∧ (v.readReg .pc).toNat = (if p.2 then k else (u.readReg .pc).toNat)

/-! ### Call, return and function bodies (44_call_fn.md) -/

/-- Call below the capacity: the return index goes to the word at SP, SP rises by 1, and PC is the literal plus one. -/
def Obligations.CallPushesReturnAndEnters : Prop :=
  ∀ (s : State) (k : Nat), s.Inv → (Instr.call k).wellFormed = true →
    (s.readReg .sp).toNat + 1 < s.data.capacity →
    ∃ t, exec (.call k) s = .next t ∧ t.data.read (s.readReg .sp).toNat = some (s.readReg .pc) ∧
      (t.readReg .sp).toNat = (s.readReg .sp).toNat + 1 ∧ (t.readReg .pc).toNat = k + 1 ∧
      Frame [.sp, .pc] [(s.readReg .sp).toNat] s t

/-- Ret in Running with a readable top word: PC gets it and SP falls by 1; and Ret always is `Pop PC`. -/
def Obligations.RetPopsIntoPc : Prop :=
  (∀ (s : State) (v : Word), 1 ≤ (s.readReg .sp).toNat → s.data.read ((s.readReg .sp).toNat - 1) = some v →
    ∃ t, exec .ret s = .next t ∧ t.readReg .pc = v ∧ (t.readReg .sp).toNat = (s.readReg .sp).toNat - 1 ∧
      Frame [.sp, .pc] [] s t) ∧
  ∀ s : State, exec .ret s = exec (.pop .pc) s

/-- Fn in Running: the mode becomes SkippingBody and nothing else changes. -/
def Obligations.FnStartsSkipping : Prop :=
  ∀ s : State, exec .fn s = .next { s with mode := .skippingBody }

/-- A function body is inert under linear fall-through (44_call_fn.md section 2), for every tag map: from an Fn, over words
that decode to anything but Ret, to a Ret, the run leaves everything as it was but PC, which is past the Ret. -/
def Obligations.FunctionBodyIsInertUnderFallThrough : Prop :=
  ∀ (tag : TagMap) (s : State) (n : Nat), s.Inv → s.status = .live → s.mode = .running →
    (∃ w, s.prog[(s.readReg .pc).toNat]? = some w ∧ decodeWith tag w = .op .fn) →
    (∀ j, 1 ≤ j → j ≤ n →
      ∃ w i, s.prog[(s.readReg .pc).toNat + j]? = some w ∧ decodeWith tag w = .op i ∧ i ≠ .ret) →
    (∃ w, s.prog[(s.readReg .pc).toNat + n + 1]? = some w ∧ decodeWith tag w = .op .ret) →
    runStepsWith tag (n + 2) s = .next (s.writeReg .pc (s.readReg .pc + BitVec.ofNat 32 (n + 2)))

/-- Pushing registers other than SP and popping them in reverse order restores each of them and SP, whatever other registers
hold in between, as long as the pushes did not overflow (42_stack.md section 2, the LIFO law with its exclusions, marked
derived there). execAll fetches nothing between instructions: where the list names PC, a run of steps would push and overwrite
the PC each fetch has advanced, and this statement is not about such a run. -/
def Obligations.PushesThenPopsRestore : Prop :=
  ∀ (rs : List Reg) (s t u : State), s.Inv → .sp ∉ rs → s.status = .live →
    execAll (rs.map .push) s = .next t → t.status = .live →
    u.status = .live → u.data = t.data → u.readReg .sp = t.readReg .sp →
    ∃ v, execAll (rs.reverse.map .pop) u = .next v ∧ v.status = .live ∧ v.readReg .sp = s.readReg .sp ∧
      (∀ r ∈ rs, v.readReg r = s.readReg r) ∧ ∀ r, r ∉ rs → r ≠ .sp → v.readReg r = u.readReg r

/-- A Ret on the stack a Call left returns to the word after the Call, with SP as before it (44_call_fn.md section 2). -/
def Obligations.RetReturnsAfterCall : Prop :=
  ∀ (s t u : State) (k : Nat), s.Inv → s.status = .live → exec (.call k) s = .next t → t.status = .live →
    u.data = t.data → u.readReg .sp = t.readReg .sp →
    ∃ v, exec .ret u = .next v ∧ v.readReg .pc = s.readReg .pc ∧ v.readReg .sp = s.readReg .sp ∧ v.data = u.data

/-! ### Syscall (45_syscall.md) -/

/-- Syscall 1 with a line that fits: the first min(length, D) bytes go to the words from C on, zero-extended, one each; every
other word, every register and SP are as before (the spec's decision D11). -/
def Obligations.SyscallReadsLine : Prop :=
  ∀ (s : State) (bytes : List Byte), s.Inv → (s.readReg .a).toNat = 1 → s.nextLine = .line bytes →
    let c := (s.readReg .c).toNat
    let m := min bytes.length (s.readReg .d).toNat
    (m = 0 ∨ c + m < s.data.capacity) →
    ∃ t, exec .syscall s = .next t ∧
      (∀ i, i < m → (t.data.read (c + i)).map BitVec.toNat = bytes[i]?.map BitVec.toNat) ∧
      (∀ a, a < c ∨ c + m ≤ a → t.data.read a = s.data.read a) ∧ (∀ r, t.readReg r = s.readReg r) ∧
      t.mode = s.mode ∧ t.status = s.status ∧ t.prog = s.prog ∧
      t.host = { s.host with lineReqs := s.host.lineReqs + 1 }

/-- Syscall 1 with a line that does not fit: StackOverflow at the first byte without room, the bytes before it stored, and SP
left at the buffer position (the spec's decisions D8 and D11; 70_reset_and_hazards.md section 3). -/
def Obligations.SyscallReadOverflowLeavesBufferPointer : Prop :=
  ∀ (s : State) (bytes : List Byte) (i : Nat), s.Inv → (s.readReg .a).toNat = 1 → s.nextLine = .line bytes →
    let c := (s.readReg .c).toNat
    i < min bytes.length (s.readReg .d).toNat → (i = 0 ∨ c + i < s.data.capacity) → s.data.capacity ≤ c + i + 1 →
    ∃ t, exec .syscall s = .next t ∧ t.status = .faulted (.stackOverflow (BitVec.ofNat 32 (c + i))) ∧
      (t.readReg .sp).toNat = c + i ∧ (∀ r, r ≠ .sp → t.readReg r = s.readReg r) ∧
      (∀ j, j < i → (t.data.read (c + j)).map BitVec.toNat = bytes[j]?.map BitVec.toNat) ∧
      ∀ a, a < c ∨ c + i ≤ a → t.data.read a = s.data.read a

/-- Syscall 2 with every word readable and accepted: the D words from C on are sent in address order, and nothing of the
machine changes (the spec's decision D13; the record of what was sent is the model's, log entry 9). -/
def Obligations.SyscallWritesWords : Prop :=
  ∀ (s : State) (words : List Word), (s.readReg .a).toNat = 2 → words.length = (s.readReg .d).toNat →
    (∀ j, j < words.length → s.data.read ((s.readReg .c).toNat + j) = words[j]?) →
    (∀ j, j < words.length → s.host.ackAnswer (s.host.writeReqs + j) = .ok) →
    exec .syscall s = .next { s with host := { s.host with
      writeReqs := s.host.writeReqs + words.length
      sent := s.host.sent ++ words.map fun w => ⟨w, true⟩ } }

/-- Syscall 2 that stops after some words: MemoryRead at the first address outside the data memory, HostIo at the first word
the host refuses; the words before it are sent (the spec's decisions D7, D12 and D13; log entry 9). -/
def Obligations.SyscallWriteStopsAtFirstFailure : Prop :=
  ∀ (s : State) (words : List Word), (s.readReg .a).toNat = 2 → words.length < (s.readReg .d).toNat →
    (∀ j, j < words.length → s.data.read ((s.readReg .c).toNat + j) = words[j]?) →
    (∀ j, j < words.length → s.host.ackAnswer (s.host.writeReqs + j) = .ok) →
    (s.data.capacity ≤ (s.readReg .c).toNat + words.length →
      exec .syscall s = .next { s with
        status := .faulted (.memoryRead ((s.readReg .c).toNat + words.length))
        host := { s.host with
          writeReqs := s.host.writeReqs + words.length
          sent := s.host.sent ++ words.map fun w => ⟨w, true⟩ } }) ∧
    ∀ w, s.data.read ((s.readReg .c).toNat + words.length) = some w →
      s.host.ackAnswer (s.host.writeReqs + words.length) = .fail →
      exec .syscall s = .next { s with
        status := .faulted .hostIo
        host := { s.host with
          writeReqs := s.host.writeReqs + (words.length + 1)
          sent := s.host.sent ++ ((words.map fun x => ⟨x, true⟩) ++ [⟨w, false⟩]) } }

/-- A line request the host fails raises HostIo with SP and memory unchanged; a host that never answers the line request, or
never answers one of the words, the first or a later one, leaves the step of Syscall 1 or 2 incomplete (the spec's decisions
D12 and D13; the stop is the model's form of "stuck", log entry 8). -/
def Obligations.HostFailureAndSilence : Prop :=
  ∀ s : State,
    ((s.readReg .a).toNat = 1 → s.nextLine = .fail → exec .syscall s = .next { s with
      status := .faulted .hostIo, host := { s.host with lineReqs := s.host.lineReqs + 1 } }) ∧
    ((s.readReg .a).toNat = 1 → s.nextLine = .silent → exec .syscall s = .fault .hostSilent) ∧
    ∀ (words : List Word) (w : Word), (s.readReg .a).toNat = 2 → words.length < (s.readReg .d).toNat →
      (∀ j, j < words.length → s.data.read ((s.readReg .c).toNat + j) = words[j]?) →
      (∀ j, j < words.length → s.host.ackAnswer (s.host.writeReqs + j) = .ok) →
      s.data.read ((s.readReg .c).toNat + words.length) = some w →
      s.host.ackAnswer (s.host.writeReqs + words.length) = .silent →
      exec .syscall s = .fault .hostSilent

/-- Any other selector raises UnimplementedSyscall with its whole value, and nothing else changes (45_syscall.md R186). -/
def Obligations.OtherSelectorsAreUnimplemented : Prop :=
  ∀ s : State, (s.readReg .a).toNat ≠ 0 → (s.readReg .a).toNat ≠ 1 → (s.readReg .a).toNat ≠ 2 →
    exec .syscall s = .next { s with status := .faulted (.unimplementedSyscall (s.readReg .a)) } ∧
    (Error.unimplementedSyscall (s.readReg .a)).recoverable = false

/-! ### Memories, registers and the driver's views -/

/-- The data memory's primitives (20_memory.md section 1): both fail exactly at or past the capacity, a write sets its word
and no other, and a read gives the last word written. -/
def Obligations.DataMemoryReadsLastWrite : Prop :=
  ∀ (m : Memory) (a : Nat) (v : Word), m.wf = true →
    (m.read a = none ↔ m.capacity ≤ a) ∧ (m.write a v = none ↔ m.capacity ≤ a) ∧
    ∀ n, m.write a v = some n →
      n.wf = true ∧ n.capacity = m.capacity ∧ n.read a = some v ∧ ∀ b, b ≠ a → n.read b = m.read b

/-- The register file (10_state.md R35): a read gives the last value written, or 0 if none was written since construction. -/
def Obligations.RegisterFileReadsLastWrite : Prop :=
  (∀ (s : State) (r q : Reg) (v : Word), (s.writeReg r v).readReg q = if q = r then v else s.readReg q) ∧
  ∀ p d ls ks r, (State.construct p d ls ks).readReg r = 0

/-- The driver's views: the dump holds the registers in index order and the stack's words (40_step.md section 3, range and
order the spec's decision D19), and the range read gives a range whole or fails (20_memory.md section 1, decision D18; a range of 0
words from past the end fails: log entry 20). -/
def Obligations.DumpAndRangeRead : Prop :=
  (∀ s : State, s.dump.registers = [s.readReg .sp, s.readReg .pc, s.readReg .flag, s.readReg .zero,
      s.readReg .a, s.readReg .b, s.readReg .c, s.readReg .d] ∧
    s.dump.stack.length = min (s.readReg .sp).toNat s.data.capacity ∧
    ∀ a, a < (s.readReg .sp).toNat → s.dump.stack[a]? = s.data.read a) ∧
  ∀ (s : State) (start n : Nat),
    (s.prog.length < start + n → s.iReadRange start n = none) ∧
    (start + n ≤ s.prog.length → ∃ ws, s.iReadRange start n = some ws ∧ ws.length = n ∧
      ∀ j, j < n → ws[j]? = s.prog[start + j]?)

/-- The nine error kinds with their codes and classes (60_exceptions.md section 2; the codes are the spec's decision D14). -/
def Obligations.ErrorCodesAndClasses : Prop :=
  ∀ (x : Word) (n : Nat) (y : BitVec 8),
    [Error.noNextInstruction x, .stackOverflow x, .stackUnderflow x, .memoryWrite n, .memoryRead n, .hostIo].map
      (fun e => (e.code, e.recoverable)) = [(1, true), (2, true), (3, true), (4, true), (5, true), (6, true)] ∧
    [Error.unknownOpcode y, .divisionByZero x, .unimplementedSyscall x].map (fun e => (e.code, e.recoverable)) =
      [(16, false), (17, false), (18, false)]
end

