-- ==== Sys2Proof/Laws/Alu.lean ====
section
/-!
SUPPORT. The arithmetic laws of 41_arith_imm.md R110 on natural numbers, and the comparison bits of
43_compare_branch.md R150.
-/

namespace Sys2Proof.Machine

theorem wrap32_natCast (n : Nat) : wrap32 (n : Int) = BitVec.ofNat 32 n := by
  apply BitVec.eq_of_toNat_eq
  rw [wrap32, BitVec.toNat_ofInt, BitVec.toNat_ofNat]
  norm_cast

@[simp] theorem toNat_wrap32_natCast (n : Nat) : (wrap32 (n : Int)).toNat = n % 2 ^ 32 := by
  rw [wrap32_natCast, BitVec.toNat_ofNat]

@[simp] theorem toNat_wrap32_succ (n : Nat) : (wrap32 ((n : Int) + 1)).toNat = (n + 1) % 2 ^ 32 :=
  toNat_wrap32_natCast (n + 1)

theorem toNat_wrap32_sub {m n : Nat} (h : n ≤ m) : (wrap32 ((m : Int) - n)).toNat = (m - n) % 2 ^ 32 := by
  rw [← Nat.cast_sub h, toNat_wrap32_natCast]

theorem toNat_wrap32_pred {n : Nat} (h : 1 ≤ n) : (wrap32 ((n : Int) - 1)).toNat = (n - 1) % 2 ^ 32 :=
  toNat_wrap32_sub (n := 1) h

theorem wrap32_toNat_succ (x : Word) : wrap32 ((x.toNat : Int) + 1) = x + 1 := by
  apply BitVec.eq_of_toNat_eq
  rw [toNat_wrap32_succ, BitVec.toNat_add]; rfl

theorem wrap32_toNat_pred (x : Word) : wrap32 ((x.toNat : Int) - 1) = x - 1 := by
  apply BitVec.eq_of_toNat_eq
  rcases Nat.eq_zero_or_pos x.toNat with h | h
  · rw [BitVec.eq_of_toNat_eq (x := x) (y := 0#32) h]; rfl
  · have := x.isLt
    rw [toNat_wrap32_pred h, BitVec.toNat_sub]; simp; omega

theorem toNat_literal {k : Nat} (h : k < 2 ^ 32) : (literal k).toNat = k := by
  rw [literal, BitVec.toNat_ofNat, Nat.mod_eq_of_lt h]

@[simp] theorem toNat_byteWord (b : Byte) : (byteWord b).toNat = b.toNat := by
  rw [byteWord, BitVec.zeroExtend, BitVec.toNat_setWidth, Nat.mod_eq_of_lt (by have := b.isLt; omega)]

theorem aluAdd_toNat (a b : Word) : (aluAdd a b).toNat = (a.toNat + b.toNat) % 2 ^ 32 :=
  toNat_wrap32_natCast (a.toNat + b.toNat)

theorem aluSub_toNat (a b : Word) : (aluSub a b).toNat = (a.toNat + 2 ^ 32 - b.toNat) % 2 ^ 32 := by
  have h : ((a.toNat : Int) - b.toNat) % 2 ^ 32 = ((a.toNat + 2 ^ 32 - b.toNat : Nat) : Int) % 2 ^ 32 := by
    have := b.isLt
    omega
  rw [aluSub, wrap32, BitVec.toNat_ofInt]
  have h2 : ((a.toNat + 2 ^ 32 - b.toNat : Nat) : Int) % 2 ^ 32
      = (((a.toNat + 2 ^ 32 - b.toNat) % 2 ^ 32 : Nat) : Int) := by norm_cast
  rw [show ((2 ^ 32 : Nat) : Int) = 2 ^ 32 by norm_num, h, h2, Int.toNat_natCast]

theorem aluMul_toNat (a b : Word) : (aluMul a b).toNat = (a.toNat * b.toNat) % 2 ^ 32 :=
  toNat_wrap32_natCast (a.toNat * b.toNat)

theorem aluDiv_zero (a : Word) : aluDiv a 0 = none := if_pos rfl

theorem aluDiv_toNat {a b : Word} (h : b ≠ 0) : ∃ q, aluDiv a b = some q ∧ q.toNat = a.toNat / b.toNat := by
  refine ⟨_, if_neg h, ?_⟩
  rw [toNat_wrap32_natCast, Nat.mod_eq_of_lt (lt_of_le_of_lt (Nat.div_le_self _ _) a.isLt)]

/-! ### Comparison bits -/

theorem compareFlags_bit0 (a b : Word) : (compareFlags a b).getLsbD 0 = decide (a.toNat = 0) := by
  unfold compareFlags flagIf; split_ifs <;> simp_all
theorem compareFlags_bit1 (a b : Word) : (compareFlags a b).getLsbD 1 = decide (a.toNat < b.toNat) := by
  unfold compareFlags flagIf; split_ifs <;> simp_all
theorem compareFlags_bit2 (a b : Word) : (compareFlags a b).getLsbD 2 = decide (a.toNat > b.toNat) := by
  unfold compareFlags flagIf; split_ifs <;> simp_all
theorem compareFlags_bit3 (a b : Word) : (compareFlags a b).getLsbD 3 = decide (a.toNat = b.toNat) := by
  unfold compareFlags flagIf; split_ifs <;> simp_all
theorem compareFlags_bit4 (a b : Word) : (compareFlags a b).getLsbD 4 = decide (a.toNat ≠ b.toNat) := by
  unfold compareFlags flagIf; split_ifs <;> simp_all

end Sys2Proof.Machine
end

