-- ==== Sys2Proof/Laws/Boundary.lean ====
section
/-!
SUPPORT. What the literal parser can answer (30_encoding.md R75, R76), whatever the free values of log entry 13 are.
-/

namespace Sys2Proof.Machine

/-- A failure of open kind is one of the rule's two failures. -/
theorem openFailure_cases (text : List Char) : openFailure text = .tooBig ∨ openFailure text = .invalidDigit := by
  unfold openFailure
  split
  · exact .inl rfl
  · exact .inr rfl

theorem openFailure_ne_value (text : List Char) (k : Nat) : openFailure text ≠ .value k := by
  rcases openFailure_cases text with h | h <;> rw [h] <;> simp

/-- What a number gives: its value where it is a Bit13Literal, and else a failure. -/
theorem parseNumber_cases (text : List Char) (negative : Bool) (v : Nat) :
    (parseNumber text negative v = .value v ∧ v ≤ maxLiteral) ∨ parseNumber text negative v = .tooBig ∨
      parseNumber text negative v = .invalidDigit := by
  unfold parseNumber
  split
  · exact .inr (openFailure_cases text)
  · split
    · exact .inl ⟨rfl, ‹_›⟩
    · split
      · exact .inr (.inl rfl)
      · exact .inr (openFailure_cases text)

/-- The ways the parser can go: no digit at all, a character that is no digit of the base, a rejected open spelling, or a
number. -/
theorem parseReading_cases (text : List Char) (r : LitReading) :
    (r.digits = [] ∧ parseReading text r = parseEmpty text) ∨
    (r.digits ≠ [] ∧ digitsValue r.base 0 r.digits = none ∧ parseReading text r = .invalidDigit) ∨
    ∃ v, r.digits ≠ [] ∧ digitsValue r.base 0 r.digits = some v ∧
      ((isOpenSpelling text r = true ∧ parseReading text r = .invalidDigit) ∨
        parseReading text r = parseNumber text r.negative v) := by
  unfold parseReading
  split
  · exact .inl ⟨‹_›, rfl⟩
  · split
    · exact .inr (.inl ⟨‹_›, ‹_›, rfl⟩)
    · refine .inr (.inr ⟨_, ‹_›, ‹_›, ?_⟩)
      split
      · rename_i h
        exact .inl ⟨(Bool.and_eq_true _ _ ▸ h).1, rfl⟩
      · exact .inr rfl

/-- A text whose reading has a character that is no digit of its base does not parse. -/
theorem parseReading_of_nonDigit {text : List Char} {r : LitReading} (hd : r.digits ≠ [])
    (hv : digitsValue r.base 0 r.digits = none) : parseReading text r = .invalidDigit := by
  rcases parseReading_cases text r with ⟨h, -⟩ | ⟨-, -, h⟩ | ⟨v, -, h, -⟩
  · exact absurd h hd
  · exact h
  · rw [hv] at h; cases h

/-- A number above 8191 fails, in whatever way it is spelled. -/
theorem parseReading_of_large {text : List Char} {r : LitReading} {v : Nat} (hd : r.digits ≠ [])
    (hv : digitsValue r.base 0 r.digits = some v) (hl : maxLiteral < v) :
    parseReading text r = .tooBig ∨ parseReading text r = .invalidDigit := by
  rcases parseReading_cases text r with ⟨h, -⟩ | ⟨-, h, -⟩ | ⟨u, -, hu, ⟨-, h⟩ | h⟩
  · exact absurd h hd
  · rw [hv] at h; cases h
  · exact .inr h
  · rw [hv] at hu; cases hu
    rw [h]
    rcases parseNumber_cases text r.negative v with ⟨-, hv⟩ | h | h
    · omega
    · exact .inl h
    · exact .inr h

/-- Every value the parser gives is a Bit13Literal (30_encoding.md R75). -/
theorem parseLiteral_value_le {text : String} {k : Nat} (h : parseLiteral text = .value k) : k ≤ maxLiteral := by
  unfold parseLiteral at h
  rcases parseReading_cases text.toList (readText text.toList) with ⟨-, e⟩ | ⟨-, -, e⟩ | ⟨v, -, -, ⟨-, e⟩ | e⟩ <;> rw [e] at h
  · unfold parseEmpty at h
    split at h <;> cases h
    exact Nat.le_of_lt_succ (Nat.mod_lt _ (Nat.succ_pos _))
  · cases h
  · cases h
  · rcases parseNumber_cases text.toList (readText text.toList).negative v with ⟨e, hv⟩ | e | e <;> rw [e] at h <;> cases h
    exact hv

end Sys2Proof.Machine
end

