-- ==== Sys2Proof/Laws/Codec.lean ====
section
/-!
SUPPORT. Laws of the codec's parts: register indices, the tag lookup, and the fields of an assembled word.
-/

namespace Sys2Proof

@[simp] theorem Reg.ofIdx_idx (r : Reg) : Reg.ofIdx r.idx = r := by cases r <;> rfl

theorem Reg.idx_ofIdx (n : BitVec 3) : (Reg.ofIdx n).idx = n := by
  revert n; decide

theorem Mnemonic.mem_all (m : Mnemonic) : m ∈ Mnemonic.all := by cases m <;> decide

/-- Under an injective tag map a mnemonic's tag selects that mnemonic. -/
theorem mnemonicOf_tag {tag : TagMap} (h : tag.Injective) (m : Mnemonic) : mnemonicOf tag (tag m) = some m := by
  have hm := Mnemonic.mem_all m
  unfold mnemonicOf
  generalize Mnemonic.all = l at hm
  induction l with
  | nil => cases hm
  | cons n rest ih =>
    rw [List.find?_cons]
    by_cases hn : tag n = tag m
    · simp [h n m hn]
    · rw [beq_eq_false_iff_ne.mpr hn]
      refine ih ?_
      rcases List.mem_cons.mp hm with rfl | hr
      · exact absurd rfl hn
      · exact hr

theorem mnemonicOf_some {tag : TagMap} {t : BitVec 8} {m : Mnemonic} (h : mnemonicOf tag t = some m) : tag m = t := by
  simpa using List.find?_some h

theorem mnemonicOf_none {tag : TagMap} {t : BitVec 8} (h : mnemonicOf tag t = none) (m : Mnemonic) : tag m ≠ t := by
  simpa using List.find?_eq_none.mp h m (Mnemonic.mem_all m)

@[simp] theorem assemble_mnemonic (m : Mnemonic) (w : Word) : (assemble m w).mnemonic = m := by cases m <;> rfl

/-- The default tags are injective (30_encoding.md R69). -/
theorem Config.opcodeTag_injective : TagMap.Injective Config.opcodeTag := by
  intro m n; cases m <;> cases n <;> decide

/-- The literal of a well-formed instruction is a Bit13Literal (30_encoding.md R75). -/
theorem Instr.literal_le {i : Instr} {k : Nat} (h : i.wellFormed = true) (hk : i.literal? = some k) : k ≤ 8191 := by
  rw [Instr.wellFormed, hk] at h
  exact of_decide_eq_true h

/-- What decode answers, by the tag lookup. -/
theorem decodeWith_op {tag : TagMap} {w : Word} {i : Instr} (h : decodeWith tag w = .op i) :
    ∃ m, mnemonicOf tag (Word.tag w) = some m ∧ i = assemble m w := by
  unfold decodeWith at h
  split at h <;> cases h
  exact ⟨_, ‹_›, rfl⟩

end Sys2Proof
end

