-- ==== Sys2Proof/Laws/Memory.lean ====
section
/-!
SUPPORT. The data memory's laws: a read after a write, the frame of a write, the canonical form, and construction.
-/

namespace Sys2Proof.Machine

/-! ### Cells -/

theorem cellsGet_below {hi lo : Nat} {l : List (Nat × Word)} {a : Nat} (h : cellsWf hi lo l = true) (ha : a < lo) :
    cellsGet l a = Config.unlistedWord := by
  induction l generalizing lo with
  | nil => rfl
  | cons p rest ih =>
    obtain ⟨b, u⟩ := p
    simp only [cellsWf, Bool.and_eq_true, decide_eq_true_eq] at h
    obtain ⟨⟨⟨h1, -⟩, -⟩, h4⟩ := h
    rw [cellsGet, if_neg (by omega)]
    exact ih h4 (by omega)

theorem cellsWf_weaken {hi lo lo' : Nat} {l : List (Nat × Word)} (h : cellsWf hi lo l = true) (hl : lo' ≤ lo) :
    cellsWf hi lo' l = true := by
  cases l with
  | nil => rfl
  | cons p rest =>
    obtain ⟨b, u⟩ := p
    simp only [cellsWf, Bool.and_eq_true, decide_eq_true_eq] at h ⊢
    exact ⟨⟨⟨by omega, h.1.1.2⟩, h.1.2⟩, h.2⟩

theorem cellsWf_set {hi lo : Nat} {l : List (Nat × Word)} {a : Nat} {v : Word} (h : cellsWf hi lo l = true)
    (hlo : lo ≤ a) (hhi : a < hi) : cellsWf hi lo (cellsSet l a v) = true := by
  induction l generalizing lo with
  | nil =>
    by_cases hv : v = Config.unlistedWord
    · simp [cellsSet, hv, cellsWf]
    · simp [cellsSet, hv, cellsWf, hlo, hhi]
  | cons p rest ih =>
    obtain ⟨b, u⟩ := p
    have h' := h
    simp only [cellsWf, Bool.and_eq_true, decide_eq_true_eq] at h'
    obtain ⟨⟨⟨h1, h2⟩, h3⟩, h4⟩ := h'
    rw [cellsSet]
    split_ifs with hab hv heq hv
    · exact h
    · simp only [cellsWf, Bool.and_eq_true, decide_eq_true_eq]
      exact ⟨⟨⟨hlo, hhi⟩, hv⟩, ⟨⟨by omega, h2⟩, h3⟩, h4⟩
    · exact cellsWf_weaken h4 (by omega)
    · subst heq
      simp only [cellsWf, Bool.and_eq_true, decide_eq_true_eq]
      exact ⟨⟨⟨hlo, hhi⟩, hv⟩, h4⟩
    · simp only [cellsWf, Bool.and_eq_true, decide_eq_true_eq]
      exact ⟨⟨⟨h1, h2⟩, h3⟩, ih h4 (by omega)⟩

theorem cellsGet_set {hi lo : Nat} {l : List (Nat × Word)} (h : cellsWf hi lo l = true) (a q : Nat) (v : Word) :
    cellsGet (cellsSet l a v) q = if q = a then v else cellsGet l q := by
  induction l generalizing lo with
  | nil => by_cases hv : v = Config.unlistedWord <;> simp [cellsSet, hv, cellsGet]
  | cons p rest ih =>
    obtain ⟨b, u⟩ := p
    have h' := h
    simp only [cellsWf, Bool.and_eq_true, decide_eq_true_eq] at h'
    obtain ⟨⟨⟨h1, h2⟩, h3⟩, h4⟩ := h'
    rw [cellsSet]
    rcases Nat.lt_trichotomy a b with hab | hab | hab
    · rw [if_pos hab]
      split_ifs with hv hqa hqa
      · rw [hqa, cellsGet, if_neg (by omega), cellsGet_below h4 (by omega), hv]
      · rfl
      · simp [cellsGet, hqa]
      · rw [cellsGet, if_neg hqa]
    · subst hab
      rw [if_neg (by omega), if_pos rfl]
      split_ifs with hv hqa hqa
      · rw [hqa, cellsGet_below h4 (by omega), hv]
      · rw [cellsGet, if_neg hqa]
      · simp [cellsGet, hqa]
      · rw [cellsGet, cellsGet, if_neg hqa, if_neg hqa]
    · rw [if_neg (by omega), if_neg (by omega), cellsGet, cellsGet, ih h4]
      split_ifs <;> first | rfl | omega

/-! ### The primitives of 20_memory.md R42 -/

theorem Memory.write_isSome {m : Memory} {a : Nat} (v : Word) (h : a < m.capacity) :
    m.write a v = some { m with cells := cellsSet m.cells a v } := if_pos h

theorem Memory.write_capacity {m n : Memory} {a : Nat} {v : Word} (h : m.write a v = some n) :
    n.capacity = m.capacity := by
  unfold Memory.write at h; split at h
  · cases h; rfl
  · cases h

/-- Every write keeps the canonical form. -/
theorem Memory.write_wf {m n : Memory} {a : Nat} {v : Word} (hw : m.wf = true) (h : m.write a v = some n) :
    n.wf = true := by
  unfold Memory.write at h; split at h
  · cases h; exact cellsWf_set hw (Nat.zero_le _) ‹_›
  · cases h

/-- A write changes the word written and no other. -/
theorem Memory.read_write {m n : Memory} {a : Nat} {v : Word} (hw : m.wf = true) (h : m.write a v = some n) (q : Nat) :
    n.read q = if q = a then some v else m.read q := by
  unfold Memory.write at h; split at h
  · cases h
    simp only [Memory.read, cellsGet_set hw]
    split_ifs <;> simp_all
  · cases h

theorem Memory.read_eq_none {m : Memory} {a : Nat} : m.read a = none ↔ m.capacity ≤ a := by
  unfold Memory.read; split <;> simp <;> omega

theorem Memory.read_isSome {m : Memory} {a : Nat} (h : a < m.capacity) : ∃ v, m.read a = some v :=
  ⟨_, if_pos h⟩

theorem Memory.blank_wf (n : Nat) : (Memory.blank n).wf = true := rfl

/-! ### Construction -/

theorem cellsOf_wf (words : List Word) (a : Nat) : cellsWf (a + words.length) a (cellsOf a words) = true := by
  induction words generalizing a with
  | nil => rfl
  | cons w rest ih =>
    have h := ih (a + 1)
    rw [show a + 1 + rest.length = a + (w :: rest).length by simp; omega] at h
    rw [cellsOf]
    split_ifs with hw
    · exact cellsWf_weaken h (by omega)
    · simp only [cellsWf, Bool.and_eq_true, decide_eq_true_eq]
      exact ⟨⟨⟨le_refl _, by simp⟩, hw⟩, h⟩

theorem cellsGet_cellsOf (words : List Word) (a q : Nat) (h : q < words.length) :
    some (cellsGet (cellsOf a words) (a + q)) = words[q]? := by
  induction words generalizing a q with
  | nil => simp at h
  | cons w rest ih =>
    rw [cellsOf]
    cases q with
    | zero =>
      split_ifs with hw
      · rw [cellsGet_below (cellsOf_wf rest (a + 1)) (by omega)]; simp [hw]
      · simp [cellsGet]
    | succ q =>
      have h' := ih (a + 1) q (by simpa using h)
      rw [show a + 1 + q = a + (q + 1) by omega] at h'
      split_ifs with hw
      · simpa using h'
      · rw [cellsGet, if_neg (by omega)]; simpa using h'

theorem Memory.ofWords_wf (words : List Word) : (Memory.ofWords words).wf = true := by
  simpa [Memory.wf, Memory.ofWords] using cellsOf_wf words 0

/-- A constructed data memory holds `DATA_INIT` word for word. -/
theorem Memory.read_ofWords (words : List Word) (a : Nat) : (Memory.ofWords words).read a = words[a]? := by
  unfold Memory.read Memory.ofWords
  split
  · simpa using cellsGet_cellsOf words 0 a ‹_›
  · rw [List.getElem?_eq_none (Nat.le_of_not_lt ‹¬ _›)]

end Sys2Proof.Machine
end

