-- ==== Sys2Proof/Laws/State.lean ====
section
/-!
SUPPORT. What each update of the state does to each field, so that no proof unfolds a record update.
-/

namespace Sys2Proof.Machine

/-! ### Register file -/

@[simp] theorem RegFile.get_set (f : RegFile) (r q : Reg) (v : Word) :
    (f.set r v).get q = if q = r then v else f.get q := by
  cases r <;> cases q <;> rfl

/-- Two register files that agree on every register are the same data. -/
theorem RegFile.ext_get {f g : RegFile} (h : ∀ r, f.get r = g.get r) : f = g := by
  cases f; cases g
  have h0 := h .sp; have h1 := h .pc; have h2 := h .flag; have h3 := h .zero
  have h4 := h .a; have h5 := h .b; have h6 := h .c; have h7 := h .d
  simp only [RegFile.get] at h0 h1 h2 h3 h4 h5 h6 h7
  subst_vars; rfl

/-! ### writeReg -/

@[simp] theorem State.readReg_writeReg (s : State) (r q : Reg) (v : Word) :
    (s.writeReg r v).readReg q = if q = r then v else s.readReg q := RegFile.get_set _ _ _ _

@[simp] theorem State.writeReg_mode (s : State) (r : Reg) (v : Word) : (s.writeReg r v).mode = s.mode := rfl
@[simp] theorem State.writeReg_status (s : State) (r : Reg) (v : Word) : (s.writeReg r v).status = s.status := rfl
@[simp] theorem State.writeReg_prog (s : State) (r : Reg) (v : Word) : (s.writeReg r v).prog = s.prog := rfl
@[simp] theorem State.writeReg_data (s : State) (r : Reg) (v : Word) : (s.writeReg r v).data = s.data := rfl
@[simp] theorem State.writeReg_host (s : State) (r : Reg) (v : Word) : (s.writeReg r v).host = s.host := rfl

/-! ### raise -/

@[simp] theorem State.raise_readReg (s : State) (e : Error) (r : Reg) : (s.raise e).readReg r = s.readReg r := rfl
@[simp] theorem State.raise_mode (s : State) (e : Error) : (s.raise e).mode = s.mode := rfl
@[simp] theorem State.raise_status (s : State) (e : Error) : (s.raise e).status = .faulted e := rfl
@[simp] theorem State.raise_prog (s : State) (e : Error) : (s.raise e).prog = s.prog := rfl
@[simp] theorem State.raise_data (s : State) (e : Error) : (s.raise e).data = s.data := rfl
@[simp] theorem State.raise_host (s : State) (e : Error) : (s.raise e).host = s.host := rfl

/-! ### A state written out, and its registers -/

@[simp] theorem State.readReg_mk (f : RegFile) (m : Mode) (x : Status) (p : List Word) (d : Memory) (h : HostPort)
    (r : Reg) : (State.mk f m x p d h).readReg r = f.get r := rfl
@[simp] theorem State.regs_get (s : State) (r : Reg) : s.regs.get r = s.readReg r := rfl

/-! ### advancePc -/

@[simp] theorem State.advancePc_readReg (s : State) (r : Reg) :
    s.advancePc.readReg r = if r = .pc then wrap32 ((s.readReg .pc).toNat + 1) else s.readReg r :=
  State.readReg_writeReg _ _ _ _
@[simp] theorem State.advancePc_mode (s : State) : s.advancePc.mode = s.mode := rfl
@[simp] theorem State.advancePc_status (s : State) : s.advancePc.status = s.status := rfl
@[simp] theorem State.advancePc_prog (s : State) : s.advancePc.prog = s.prog := rfl
@[simp] theorem State.advancePc_data (s : State) : s.advancePc.data = s.data := rfl
@[simp] theorem State.advancePc_host (s : State) : s.advancePc.host = s.host := rfl

/-! ### recordSent -/

@[simp] theorem State.recordSent_readReg (s : State) (w : Word) (b : Bool) (r : Reg) :
    (s.recordSent w b).readReg r = s.readReg r := rfl
@[simp] theorem State.recordSent_mode (s : State) (w : Word) (b : Bool) : (s.recordSent w b).mode = s.mode := rfl
@[simp] theorem State.recordSent_status (s : State) (w : Word) (b : Bool) :
    (s.recordSent w b).status = s.status := rfl
@[simp] theorem State.recordSent_prog (s : State) (w : Word) (b : Bool) : (s.recordSent w b).prog = s.prog := rfl
@[simp] theorem State.recordSent_data (s : State) (w : Word) (b : Bool) : (s.recordSent w b).data = s.data := rfl
@[simp] theorem State.recordSent_sent (s : State) (w : Word) (b : Bool) :
    (s.recordSent w b).host.sent = s.host.sent ++ [⟨w, b⟩] := rfl
@[simp] theorem State.recordSent_writeReqs (s : State) (w : Word) (b : Bool) :
    (s.recordSent w b).host.writeReqs = s.host.writeReqs + 1 := rfl
@[simp] theorem State.recordSent_ackAnswer (s : State) (w : Word) (b : Bool) (n : Nat) :
    (s.recordSent w b).host.ackAnswer n = s.host.ackAnswer n := rfl

/-! ### skip -/

@[simp] theorem State.skip_readReg (i : Instr) (s : State) (r : Reg) : (s.skip i).readReg r = s.readReg r := by
  unfold State.skip; split <;> rfl
@[simp] theorem State.skip_status (i : Instr) (s : State) : (s.skip i).status = s.status := by
  unfold State.skip; split <;> rfl
@[simp] theorem State.skip_prog (i : Instr) (s : State) : (s.skip i).prog = s.prog := by
  unfold State.skip; split <;> rfl
@[simp] theorem State.skip_data (i : Instr) (s : State) : (s.skip i).data = s.data := by
  unfold State.skip; split <;> rfl
@[simp] theorem State.skip_host (i : Instr) (s : State) : (s.skip i).host = s.host := by
  unfold State.skip; split <;> rfl
theorem State.skip_ret (s : State) : s.skip .ret = { s with mode := .running } := rfl
theorem State.skip_of_ne_ret {i : Instr} (h : i ≠ .ret) (s : State) : s.skip i = s := by
  cases i <;> first | rfl | exact absurd rfl h

/-! ### Reset is a construction -/

theorem State.reset_eq_construct :
    State.reset = State.construct [] (Memory.blank Config.resetMemWords) [] [] := rfl

end Sys2Proof.Machine
end

