-- ==== Sys2Proof/Laws/Ops.lean ====
section
/-!
SUPPORT. What the shared operations can do, said once: pseudocode results (`Res`), StackPush and StackPop.
-/

namespace Sys2Proof.Machine

/-! ### Results of pseudocode -/

@[simp] theorem Res.bind_ok {α β : Type} (v : α) (s : State) (f : α → State → Res β) : (Res.ok v s).bind f = f v s := rfl
@[simp] theorem Res.bind_raised {α β : Type} (e : Error) (s : State) (f : α → State → Res β) :
    (Res.raised e s : Res α).bind f = .raised e s := rfl
@[simp] theorem Res.bind_hang {α β : Type} (f : α → State → Res β) : (Res.hang : Res α).bind f = .hang := rfl
@[simp] theorem Res.finish_ok (u : Unit) (s : State) : (Res.ok u s).finish = .next s := rfl
@[simp] theorem Res.finish_raised (e : Error) (s : State) : (Res.raised e s).finish = .next (s.raise e) := rfl
@[simp] theorem Res.finish_hang : (Res.hang : Res Unit).finish = .fault .hostSilent := rfl

/-- Whatever state the pseudocode ends in, normally or by a raise, satisfies `P`. -/
def Res.All {α : Type} (P : State → Prop) : Res α → Prop
  | .ok _ s => P s
  | .raised _ s => P s
  | .hang => True

theorem Res.All.bind {α β : Type} {P : State → Prop} {r : Res α} {f : α → State → Res β} (h : r.All P)
    (hf : ∀ v t, P t → (f v t).All P) : (r.bind f).All P := by
  cases r with
  | ok v s => exact hf v s h
  | raised e s => exact h
  | hang => trivial

theorem Res.All.mono {α : Type} {P Q : State → Prop} {r : Res α} (h : r.All P) (hpq : ∀ t, P t → Q t) : r.All Q := by
  cases r with
  | ok v s => exact hpq s h
  | raised e s => exact hpq s h
  | hang => trivial

/-- A finished piece of pseudocode answers the state it ended in, with the error if one was raised. -/
theorem Res.finish_cases {r : Res Unit} {t : State} (h : r.finish = .next t) :
    r = .ok () t ∨ ∃ e u, r = .raised e u ∧ t = u.raise e := by
  cases r with
  | ok v s => cases h; exact .inl rfl
  | raised e s => cases h; exact .inr ⟨e, s, rfl, rfl⟩
  | hang => cases h

theorem Res.finish_ne_refused (r : Res Unit) (x : Refusal) : r.finish ≠ .refused x := by
  cases r <;> intro h <;> cases h

/-- Only a silent host stops a finished piece of pseudocode. -/
theorem Res.finish_fault {r : Res Unit} {f : Fault} (h : r.finish = .fault f) : r = .hang := by
  cases r with
  | ok v s => cases h
  | raised e s => cases h
  | hang => rfl

/-! ### StackPush (42_stack.md R130) -/

theorem stackPush_overflow {s : State} {v : Word} (h : s.data.capacity ≤ (s.readReg .sp).toNat + 1) :
    stackPush v s = .raised (.stackOverflow (s.readReg .sp)) s := if_pos h

theorem stackPush_ok {s : State} (v : Word) (h : (s.readReg .sp).toNat + 1 < s.data.capacity) :
    ∃ m, s.data.write (s.readReg .sp).toNat v = some m ∧
      stackPush v s = .ok () (({ s with data := m } : State).writeReg .sp (wrap32 ((s.readReg .sp).toNat + 1))) := by
  have hw := Memory.write_isSome (m := s.data) v (a := (s.readReg .sp).toNat) (by omega)
  refine ⟨_, hw, ?_⟩
  simp only [stackPush]
  rw [if_neg (by omega), hw]

/-- StackPush either overflows, with nothing changed, or stores and raises SP: MemoryWrite is never raised. -/
theorem stackPush_cases (v : Word) (s : State) :
    (s.data.capacity ≤ (s.readReg .sp).toNat + 1 ∧
      stackPush v s = .raised (.stackOverflow (s.readReg .sp)) s) ∨
    ((s.readReg .sp).toNat + 1 < s.data.capacity ∧ ∃ m, s.data.write (s.readReg .sp).toNat v = some m ∧
      stackPush v s = .ok () (({ s with data := m } : State).writeReg .sp (wrap32 ((s.readReg .sp).toNat + 1)))) := by
  rcases Nat.lt_or_ge ((s.readReg .sp).toNat + 1) s.data.capacity with h | h
  · exact .inr ⟨h, stackPush_ok v h⟩
  · exact .inl ⟨h, stackPush_overflow h⟩

/-! ### StackPop (42_stack.md R131) -/

theorem stackPop_underflow {s : State} (h : (s.readReg .sp).toNat = 0) :
    stackPop s = .raised (.stackUnderflow (s.readReg .sp)) s := by
  simp only [stackPop]; rw [if_pos (by omega)]

theorem stackPop_unreadable {s : State} (h : 1 ≤ (s.readReg .sp).toNat)
    (hc : s.data.capacity ≤ (s.readReg .sp).toNat - 1) :
    stackPop s = .raised (.memoryRead ((s.readReg .sp).toNat - 1))
      (s.writeReg .sp (wrap32 ((s.readReg .sp).toNat - 1))) := by
  simp only [stackPop, State.writeReg_data]
  rw [if_neg (by omega), Memory.read_eq_none.mpr hc]

theorem stackPop_ok {s : State} {v : Word} (h : 1 ≤ (s.readReg .sp).toNat)
    (hv : s.data.read ((s.readReg .sp).toNat - 1) = some v) :
    stackPop s = .ok v (s.writeReg .sp (wrap32 ((s.readReg .sp).toNat - 1))) := by
  simp only [stackPop, State.writeReg_data]
  rw [if_neg (by omega), hv]

/-- StackPop underflows with nothing changed, or lowers SP and then reads or fails. -/
theorem stackPop_cases (s : State) :
    ((s.readReg .sp).toNat = 0 ∧ stackPop s = .raised (.stackUnderflow (s.readReg .sp)) s) ∨
    (1 ≤ (s.readReg .sp).toNat ∧ s.data.capacity ≤ (s.readReg .sp).toNat - 1 ∧
      stackPop s = .raised (.memoryRead ((s.readReg .sp).toNat - 1))
        (s.writeReg .sp (wrap32 ((s.readReg .sp).toNat - 1)))) ∨
    (1 ≤ (s.readReg .sp).toNat ∧ ∃ v, s.data.read ((s.readReg .sp).toNat - 1) = some v ∧
      stackPop s = .ok v (s.writeReg .sp (wrap32 ((s.readReg .sp).toNat - 1)))) := by
  rcases Nat.eq_zero_or_pos (s.readReg .sp).toNat with h | h
  · exact .inl ⟨h, stackPop_underflow h⟩
  · rcases hr : s.data.read ((s.readReg .sp).toNat - 1) with _ | v
    · have hc := Memory.read_eq_none.mp hr
      exact .inr (.inl ⟨h, hc, stackPop_unreadable h hc⟩)
    · exact .inr (.inr ⟨h, v, rfl, stackPop_ok h hr⟩)

/-- The value SP gets from a pop is exact. -/
theorem toNat_popped {x : Word} (h : 1 ≤ x.toNat) : (wrap32 ((x.toNat : Int) - 1)).toNat = x.toNat - 1 := by
  rw [toNat_wrap32_pred h, Nat.mod_eq_of_lt (by have := x.isLt; omega)]

/-- The value SP gets from a push is exact when the data memory fits the address space. -/
theorem toNat_pushed {x : Word} {c : Nat} (h : x.toNat + 1 < c) (hc : c ≤ Config.maxWords) :
    (wrap32 ((x.toNat : Int) + 1)).toNat = x.toNat + 1 := by
  rw [toNat_wrap32_succ]
  exact Nat.mod_eq_of_lt (lt_of_lt_of_le h hc)

/-! ### What no stack operation changes -/

/-- `t` has the program, the data memory's size and canonical form, the mode and the status of `s`. -/
structure Kept (s t : State) : Prop where
  prog : t.prog = s.prog
  capacity : t.data.capacity = s.data.capacity
  wf : s.data.wf = true → t.data.wf = true
  mode : t.mode = s.mode
  status : t.status = s.status

theorem Kept.rfl' (s : State) : Kept s s := ⟨rfl, rfl, id, rfl, rfl⟩

theorem Kept.trans {s t u : State} (h : Kept s t) (g : Kept t u) : Kept s u :=
  ⟨g.prog.trans h.prog, g.capacity.trans h.capacity, g.wf ∘ h.wf, g.mode.trans h.mode, g.status.trans h.status⟩

theorem Kept.writeReg {s t : State} (h : Kept s t) (r : Reg) (v : Word) : Kept s (t.writeReg r v) :=
  ⟨h.prog, h.capacity, h.wf, h.mode, h.status⟩

theorem stackPush_kept {s t : State} (h : Kept s t) (v : Word) : (stackPush v t).All (Kept s) := by
  rcases stackPush_cases v t with ⟨-, he⟩ | ⟨-, m, hm, he⟩ <;> rw [he]
  · exact h
  · refine h.trans ⟨rfl, ?_, fun hw => ?_, rfl, rfl⟩
    · exact Memory.write_capacity hm
    · exact Memory.write_wf hw hm

theorem stackPop_kept {s t : State} (h : Kept s t) : (stackPop t).All (Kept s) := by
  rcases stackPop_cases t with ⟨-, he⟩ | ⟨-, -, he⟩ | ⟨-, v, -, he⟩ <;> rw [he]
  · exact h
  · exact h.writeReg _ _
  · exact h.writeReg _ _

end Sys2Proof.Machine
end

