-- ==== Sys2Proof/Laws/Exec.lean ====
section
/-!
SUPPORT. What the syscall loops and exec can do: no instruction writes the instruction store, resizes the data memory or
breaks its canonical form, and only Fn and Syscall 0 change mode or end the run otherwise than by an error.
-/

namespace Sys2Proof.Machine

/-! ### Host transactions and the syscall loops -/

theorem Kept.recordSent {s t : State} (h : Kept s t) (w : Word) (b : Bool) : Kept s (t.recordSent w b) :=
  ⟨h.prog, h.capacity, h.wf, h.mode, h.status⟩

theorem hostReadLine_kept {s t : State} (h : Kept s t) : (hostReadLine t).All (Kept s) := by
  unfold hostReadLine
  split
  · exact ⟨h.prog, h.capacity, h.wf, h.mode, h.status⟩
  · exact ⟨h.prog, h.capacity, h.wf, h.mode, h.status⟩
  · trivial

theorem hostWrite_kept {s t : State} (h : Kept s t) (w : Word) : (hostWrite w t).All (Kept s) := by
  unfold hostWrite
  split
  · exact h.recordSent _ _
  · exact h.recordSent _ _
  · trivial

theorem storeBytes_kept {s t : State} (h : Kept s t) (bytes : List Byte) : (storeBytes bytes t).All (Kept s) := by
  induction bytes generalizing t with
  | nil => exact h
  | cons b rest ih => exact (stackPush_kept h _).bind fun _ u hu => ih hu

theorem readLine_kept (c n : Word) (s : State) : (readLine c n s).All (Kept s) :=
  (hostReadLine_kept (Kept.rfl' s)).bind fun _ _ ht =>
    (storeBytes_kept (ht.writeReg _ _) _).bind fun _ _ hu => hu.writeReg _ _

theorem writeWords_kept {s t : State} (h : Kept s t) (a n : Nat) : (writeWords a n t).All (Kept s) := by
  induction n generalizing a t with
  | zero => exact h
  | succ n ih =>
    unfold writeWords
    split
    · exact h
    · exact (hostWrite_kept h _).bind fun _ u hu => ih hu _

theorem stackBinary_kept (op : Word → Word → Option Word) (s : State) : (stackBinary op s).All (Kept s) :=
  (stackPop_kept (Kept.rfl' s)).bind fun a t ht =>
    (stackPop_kept ht).bind fun b u hu => by
      split
      · exact hu
      · exact stackPush_kept hu _

theorem popInto_kept (r : Reg) (s : State) :
    ((stackPop s).bind fun v t => Res.ok () (t.writeReg r v)).All (Kept s) :=
  (stackPop_kept (Kept.rfl' s)).bind fun _ _ hu => hu.writeReg _ _

theorem call_kept (x : Word) (k : Nat) (s : State) :
    ((stackPush x s).bind fun _ t => Res.ok () (t.writeReg .pc (wrap32 ((literal k).toNat + 1)))).All (Kept s) :=
  (stackPush_kept (Kept.rfl' s) _).bind fun _ _ hu => hu.writeReg _ _

theorem jumpIf_kept (c : Bool) (k : Nat) (s : State) : Kept s (jumpIf c k s) := by
  unfold jumpIf
  split
  · exact (Kept.rfl' s).writeReg _ _
  · exact Kept.rfl' s

/-! ### exec -/

/-- `t` has the program of `s`, and a data memory of the same size, canonical if that of `s` was. -/
structure Stored (s t : State) : Prop where
  prog : t.prog = s.prog
  capacity : t.data.capacity = s.data.capacity
  wf : s.data.wf = true → t.data.wf = true

theorem Kept.stored {s t : State} (h : Kept s t) : Stored s t := ⟨h.prog, h.capacity, h.wf⟩

theorem Stored.trans {s t u : State} (h : Stored s t) (g : Stored t u) : Stored s u :=
  ⟨g.prog.trans h.prog, g.capacity.trans h.capacity, g.wf ∘ h.wf⟩

/-- How a finished piece of pseudocode that keeps mode and status ends. -/
theorem Res.finish_kept {s t : State} {r : Res Unit} (hr : r.All (Kept s)) (h : r.finish = .next t) :
    Stored s t ∧ t.mode = s.mode ∧ (t.status = s.status ∨ ∃ e, t.status = .faulted e) := by
  rcases Res.finish_cases h with rfl | ⟨e, u, rfl, rfl⟩
  · exact ⟨hr.stored, hr.mode, .inl hr.status⟩
  · exact ⟨⟨hr.prog, hr.capacity, hr.wf⟩, hr.mode, .inr ⟨e, rfl⟩⟩

/-- What a next state of exec can be, for every instruction: the instruction store and the data memory's size and
form are kept; the mode changes only at Fn; the status changes only by an error or by Syscall 0. -/
theorem exec_next {i : Instr} {s t : State} (h : exec i s = .next t) :
    Stored s t ∧
    (i ≠ .fn → t.mode = s.mode) ∧
    (t.status = s.status ∨ (∃ e, t.status = .faulted e) ∨
      (i = .syscall ∧ (s.readReg .a).toNat = 0 ∧ t.status = .exited (s.readReg .b))) := by
  have of : (Stored s t ∧ t.mode = s.mode ∧ (t.status = s.status ∨ ∃ e, t.status = .faulted e)) →
      Stored s t ∧ (i ≠ .fn → t.mode = s.mode) ∧
      (t.status = s.status ∨ (∃ e, t.status = .faulted e) ∨
        (i = .syscall ∧ (s.readReg .a).toNat = 0 ∧ t.status = .exited (s.readReg .b))) :=
    fun ⟨x, y, z⟩ => ⟨x, fun _ => y, z.imp id .inl⟩
  cases i with
  | add | sub | mul | imm | cmp => cases h; exact of ⟨⟨rfl, rfl, id⟩, rfl, .inl rfl⟩
  | div r1 r2 r3 =>
    simp only [exec, execDiv] at h
    split at h <;> cases h
    · exact of ⟨⟨rfl, rfl, id⟩, rfl, .inr ⟨_, rfl⟩⟩
    · exact of ⟨⟨rfl, rfl, id⟩, rfl, .inl rfl⟩
  | push r1 => exact of (Res.finish_kept (stackPush_kept (Kept.rfl' s) _) h)
  | pop r1 => exact of (Res.finish_kept (popInto_kept _ s) h)
  | stackAdd | stackSub | stackMul | stackDiv => exact of (Res.finish_kept (stackBinary_kept _ s) h)
  | jmp | je | jne | jg | jge | jl | jle | jz | jnz =>
    cases h
    exact of ⟨(jumpIf_kept _ _ s).stored, (jumpIf_kept _ _ s).mode, .inl (jumpIf_kept _ _ s).status⟩
  | ret => exact of (Res.finish_kept (popInto_kept _ s) h)
  | call k => exact of (Res.finish_kept (call_kept _ k s) h)
  | fn => cases h; exact ⟨⟨rfl, rfl, id⟩, fun hn => absurd rfl hn, .inl rfl⟩
  | syscall =>
    simp only [exec, execSyscall] at h
    split at h
    · cases h; exact ⟨⟨rfl, rfl, id⟩, fun _ => rfl, .inr (.inr ⟨rfl, ‹_›, rfl⟩)⟩
    · exact of (Res.finish_kept (readLine_kept _ _ s) h)
    · exact of (Res.finish_kept (writeWords_kept (Kept.rfl' s) _ _) h)
    · cases h; exact of ⟨⟨rfl, rfl, id⟩, rfl, .inr ⟨_, rfl⟩⟩

/-- exec never refuses. -/
theorem exec_ne_refused (i : Instr) (s : State) (x : Refusal) : exec i s ≠ .refused x := by
  intro h
  cases i with
  | add | sub | mul | imm | cmp | jmp | je | jne | jg | jge | jl | jle | jz | jnz | fn => cases h
  | div r1 r2 r3 => simp only [exec, execDiv] at h; split at h <;> cases h
  | push | pop | stackAdd | stackSub | stackMul | stackDiv | ret | call => exact Res.finish_ne_refused _ x h
  | syscall =>
    simp only [exec, execSyscall] at h
    split at h
    · cases h
    · exact Res.finish_ne_refused _ x h
    · exact Res.finish_ne_refused _ x h
    · cases h

/-! ### Syscall by selector (45_syscall.md R180) -/

theorem execSyscall_exit {s : State} (h : (s.readReg .a).toNat = 0) :
    execSyscall s = .next { s with status := .exited (s.readReg .b) } := by
  simp only [execSyscall, h]

theorem execSyscall_read {s : State} (h : (s.readReg .a).toNat = 1) :
    execSyscall s = (readLine (s.readReg .c) (s.readReg .d) s).finish := by
  simp only [execSyscall, h]

theorem execSyscall_write {s : State} (h : (s.readReg .a).toNat = 2) :
    execSyscall s = (writeWords (s.readReg .c).toNat (s.readReg .d).toNat s).finish := by
  simp only [execSyscall, h]

theorem execSyscall_other {s : State} (h : 2 < (s.readReg .a).toNat) :
    execSyscall s = .next (s.raise (.unimplementedSyscall (s.readReg .a))) := by
  unfold execSyscall
  split <;> first | rfl | omega

/-! ### The step -/

/-- The ways a step can go (40_step.md R91). -/
theorem stepWith_cases {tag : TagMap} {s : State} {o : Host.Outcome State Fault Refusal} (h : stepWith tag s = o) :
    (s.status ≠ .live ∧ o = .refused .notLive) ∨
    (s.status = .live ∧ s.fetch = none ∧ o = .next (s.raise (.noNextInstruction (s.readReg .pc)))) ∨
    (s.status = .live ∧ ∃ w, s.fetch = some w ∧
      ((∃ x, decodeWith tag w = .fault x ∧ o = .next (s.advancePc.raise (.unknownOpcode x))) ∨
       (∃ i, decodeWith tag w = .op i ∧ s.mode = .skippingBody ∧ o = .next (s.advancePc.skip i)) ∨
       (∃ i, decodeWith tag w = .op i ∧ s.mode = .running ∧ o = exec i s.advancePc))) := by
  subst h
  unfold stepWith cycle
  split
  · rename_i hl
    split
    · exact .inr (.inl ⟨hl, ‹_›, rfl⟩)
    · rename_i w hw
      refine .inr (.inr ⟨hl, w, hw, ?_⟩)
      unfold afterDecode
      split
      · exact .inl ⟨_, ‹_›, rfl⟩
      · rename_i i hi
        rw [State.advancePc_mode]
        split
        · exact .inr (.inl ⟨i, hi, ‹_›, rfl⟩)
        · exact .inr (.inr ⟨i, hi, ‹_›, rfl⟩)
  · rename_i hs; exact .inl ⟨fun hl => (by rw [hs] at hl; cases hl), rfl⟩
  · rename_i hs; exact .inl ⟨fun hl => (by rw [hs] at hl; cases hl), rfl⟩

/-! ### Runs -/

theorem runStepsWith_succ {tag : TagMap} {s t : State} (n : Nat) (h : stepWith tag s = .next t) :
    runStepsWith tag (n + 1) s = runStepsWith tag n t := by
  simp only [runStepsWith, h]
theorem runStepsWith_fault {tag : TagMap} {s : State} {f : Fault} (n : Nat) (h : stepWith tag s = .fault f) :
    runStepsWith tag (n + 1) s = .fault f := by
  simp only [runStepsWith, h]
theorem runStepsWith_refused {tag : TagMap} {s : State} {r : Refusal} (n : Nat) (h : stepWith tag s = .refused r) :
    runStepsWith tag (n + 1) s = .refused r := by
  simp only [runStepsWith, h]
theorem core_run_next {M : Host.Core} {s t : M.State} (n : Nat) (h : M.step s = .next t) : M.run (n + 1) s = M.run n t := by
  simp only [Host.Core.run, h]
theorem core_run_fault {M : Host.Core} {s : M.State} {f : M.Fault} (n : Nat) (h : M.step s = .fault f) :
    M.run (n + 1) s = .fault f := by
  simp only [Host.Core.run, h]
theorem core_run_refused {M : Host.Core} {s : M.State} {r : M.Refusal} (n : Nat) (h : M.step s = .refused r) :
    M.run (n + 1) s = .refused r := by
  simp only [Host.Core.run, h]

/-- A run of the model is a run of the core the host sees. -/
theorem runSteps_eq_core_run (n : Nat) (s : State) : runSteps n s = Sys2Proof.core.run n s := by
  induction n generalizing s with
  | zero => rfl
  | succ n ih =>
    rcases h : step s with t | f | r
    · exact ((runStepsWith_succ n h).trans (ih t)).trans (core_run_next (M := Sys2Proof.core) n h).symm
    · exact (runStepsWith_fault n h).trans (core_run_fault (M := Sys2Proof.core) n h).symm
    · exact (runStepsWith_refused n h).trans (core_run_refused (M := Sys2Proof.core) n h).symm

end Sys2Proof.Machine
end

