-- ==== Sys2Proof/Laws/PerInstr.lean ====
section
/-!
SUPPORT. Per-instruction facts about syntax and encoding, one lemma per constructor: whatever its operands, an encoded
instruction carries its mnemonic's tag in bits 7:0 (30_encoding.md R61, R71).
-/

namespace Sys2Proof.Laws.EncodedTag

/-- The low byte of the encoding is the tag of the mnemonic, under every tag map. -/
def Statement (i : Instr) : Prop := ∀ tag : TagMap, Word.tag (encodeWith tag i) = tag i.mnemonic

theorem tag_low_byte {t : BitVec 8} {w : Word} (h : ∀ n, n < 8 → w.getLsbD n = t.getLsbD n) : Word.tag w = t := by
  apply BitVec.eq_of_getLsbD_eq
  intro n hn
  simp only [Word.tag, BitVec.getLsbD_extractLsb', Nat.zero_add]
  simp [hn, h n hn]

theorem encN_low {t : BitVec 8} {n : Nat} (h : n < 8) : (encN t).getLsbD n = t.getLsbD n := by
  simp only [encN, BitVec.zeroExtend, BitVec.getLsbD_setWidth]
  simp [show n < 32 by omega]

/-- A field at bit `p ≥ 8` does not reach the low byte. -/
theorem or_high_low {w x : Word} {p n : Nat} (hp : 8 ≤ p) (h : n < 8) :
    (w ||| x <<< p).getLsbD n = w.getLsbD n := by
  simp only [BitVec.getLsbD_or, BitVec.getLsbD_shiftLeft]
  simp [show n < p by omega]

theorem encR_low {t : BitVec 8} {ra : Reg} {n : Nat} (h : n < 8) : (encR t ra).getLsbD n = t.getLsbD n :=
  (or_high_low (le_refl 8) h).trans (encN_low h)
theorem encRR_low {t : BitVec 8} {ra rb : Reg} {n : Nat} (h : n < 8) : (encRR t ra rb).getLsbD n = t.getLsbD n :=
  (or_high_low (by omega) h).trans (encR_low h)
theorem encRRR_low {t : BitVec 8} {ra rb rc : Reg} {n : Nat} (h : n < 8) : (encRRR t ra rb rc).getLsbD n = t.getLsbD n :=
  (or_high_low (by omega) h).trans (encRR_low h)
theorem encRL_low {t : BitVec 8} {ra : Reg} {k n : Nat} (h : n < 8) : (encRL t ra k).getLsbD n = t.getLsbD n :=
  (or_high_low (by omega) h).trans (encR_low h)
theorem encL_low {t : BitVec 8} {k n : Nat} (h : n < 8) : (encL t k).getLsbD n = t.getLsbD n :=
  (or_high_low (by omega) h).trans (encN_low h)

theorem add (r1 r2 r3 : Reg) : Statement (.add r1 r2 r3) := fun _ => tag_low_byte fun _ => encRRR_low
theorem sub (r1 r2 r3 : Reg) : Statement (.sub r1 r2 r3) := fun _ => tag_low_byte fun _ => encRRR_low
theorem mul (r1 r2 r3 : Reg) : Statement (.mul r1 r2 r3) := fun _ => tag_low_byte fun _ => encRRR_low
theorem div (r1 r2 r3 : Reg) : Statement (.div r1 r2 r3) := fun _ => tag_low_byte fun _ => encRRR_low
theorem imm (r1 : Reg) (k : Nat) : Statement (.imm r1 k) := fun _ => tag_low_byte fun _ => encRL_low
theorem push (r1 : Reg) : Statement (.push r1) := fun _ => tag_low_byte fun _ => encR_low
theorem pop (r1 : Reg) : Statement (.pop r1) := fun _ => tag_low_byte fun _ => encR_low
theorem stackAdd : Statement .stackAdd := fun _ => tag_low_byte fun _ => encN_low
theorem stackSub : Statement .stackSub := fun _ => tag_low_byte fun _ => encN_low
theorem stackMul : Statement .stackMul := fun _ => tag_low_byte fun _ => encN_low
theorem stackDiv : Statement .stackDiv := fun _ => tag_low_byte fun _ => encN_low
theorem cmp (r1 r2 : Reg) : Statement (.cmp r1 r2) := fun _ => tag_low_byte fun _ => encRR_low
theorem jmp (k : Nat) : Statement (.jmp k) := fun _ => tag_low_byte fun _ => encL_low
theorem je (k : Nat) : Statement (.je k) := fun _ => tag_low_byte fun _ => encL_low
theorem jne (k : Nat) : Statement (.jne k) := fun _ => tag_low_byte fun _ => encL_low
theorem jg (k : Nat) : Statement (.jg k) := fun _ => tag_low_byte fun _ => encL_low
theorem jge (k : Nat) : Statement (.jge k) := fun _ => tag_low_byte fun _ => encL_low
theorem jl (k : Nat) : Statement (.jl k) := fun _ => tag_low_byte fun _ => encL_low
theorem jle (k : Nat) : Statement (.jle k) := fun _ => tag_low_byte fun _ => encL_low
theorem jz (k : Nat) : Statement (.jz k) := fun _ => tag_low_byte fun _ => encL_low
theorem jnz (k : Nat) : Statement (.jnz k) := fun _ => tag_low_byte fun _ => encL_low
theorem ret : Statement .ret := fun _ => tag_low_byte fun _ => encN_low
theorem call (k : Nat) : Statement (.call k) := fun _ => tag_low_byte fun _ => encL_low
theorem fn : Statement .fn := fun _ => tag_low_byte fun _ => encN_low
theorem syscall : Statement .syscall := fun _ => tag_low_byte fun _ => encN_low

end Sys2Proof.Laws.EncodedTag
end

