-- ==== Sys2Proof/Tests/Slice0.lean ====
section
/-!
SUPPORT. The model's own tests: ill-formed instructions refused, words of 95_test_vectors.md decoded and encoded, one
step per vector, and a witness for the hypotheses of every statement. Each expected value is the spec's (the vector's
name is in the theorem's or the section's comment) or computed by hand from the rule named.
-/

open Sys2Proof Sys2Proof.Machine

namespace Tests

/-! ### Helpers -/

/-- The next state of an outcome, if it is one. -/
def nextOf (o : Host.Outcome State Fault Refusal) : Option State :=
  match o with
  | .next t => some t
  | .fault _ => none
  | .refused _ => none

/-- All registers 0. -/
def z : RegFile := RegFile.zeroed

/-- The vectors' start state: `prog`, 16 data words, and registers, cells and host answers as given. -/
def start (prog : List Word) (regs : RegFile) (cells : List (Nat × Word)) : State where
  regs := regs
  mode := .running
  status := .live
  prog := prog
  data := { capacity := 16, cells := cells }
  host := HostPort.fresh

/-- The state with scripted host answers. -/
def withHost (s : State) (lines : List HostLine) (acks : List HostAck) : State :=
  { s with host := { HostPort.fresh with lines := lines, acks := acks } }

/-- The state in SkippingBody. -/
def skipping (s : State) : State := { s with mode := .skippingBody }

/-- What a test looks at after one step: the named registers' values. -/
def regsAfter (rs : List Reg) (s : State) : Option (List Nat) :=
  (nextOf (step s)).map fun t => rs.map fun r => (t.readReg r).toNat

/-- The data words at the named addresses after one step. -/
def wordsAfter (addrs : List Nat) (s : State) : Option (List (Option Word)) :=
  (nextOf (step s)).map fun t => addrs.map t.data.read

/-- The status after one step. -/
def statusAfter (s : State) : Option Status := (nextOf (step s)).map State.status

/-! ### WellFormed: the literal check refuses 8192, in every form that has a literal (30_encoding.md R75) -/

theorem test_illformed_literals :
    [Instr.imm .a 8192, .jmp 8192, .je 8192, .jne 8192, .jg 8192, .jge 8192, .jl 8192, .jle 8192, .jz 8192,
      .jnz 8192, .call 8192].all (fun i => !i.wellFormed) = true := by decide

theorem test_wellformed_boundary : (Instr.imm .d 8191).wellFormed = true ∧ (Instr.call 0).wellFormed = true := by decide

/-! ### Decode: X1 of 95_test_vectors.md, and each tag of 30_encoding.md R69 -/

theorem test_decode_add : decode 0x0001AC00 = .op (.add .a .b .c) := by decide
theorem test_decode_sub : decode 0x00016B01 = .op (.sub .zero .b .b) := by decide
theorem test_decode_mul : decode 0x0001AC02 = .op (.mul .a .b .c) := by decide
theorem test_decode_div : decode 0x00019B03 = .op (.div .zero .zero .c) := by decide
theorem test_decode_imm : decode 0x00FFFF04 = .op (.imm .d 8191) := by decide
theorem test_decode_push : decode 0x00000105 = .op (.push .pc) := by decide
theorem test_decode_pop : decode 0x00000506 = .op (.pop .b) := by decide
theorem test_decode_stack :
    [0x00000007, 0x00000008, 0x00000009, 0x0000000A].map decode =
      [Instr.stackAdd, .stackSub, .stackMul, .stackDiv].map Decoded.op := by decide
theorem test_decode_cmp : decode 0x0000250B = .op (.cmp .b .a) := by decide
theorem test_decode_jumps :
    [0x00FFF80C, 0x0000380D, 0x0000380E, 0x0000380F, 0x00003810, 0x00003811, 0x00003812, 0x00003813, 0x00003814].map
        decode =
      [Instr.jmp 8191, .je 7, .jne 7, .jg 7, .jge 7, .jl 7, .jle 7, .jz 7, .jnz 7].map Decoded.op := by decide
theorem test_decode_call : decode 0x00FFF816 = .op (.call 8191) := by decide
theorem test_decode_ret_fn_syscall :
    [0x00000015, 0x00000017, 0x00000018].map decode = [Instr.ret, .fn, .syscall].map Decoded.op := by decide

/-- VE2, VE3, VE4: an unknown tag, and don't-care bits that are set. -/
theorem test_decode_edges :
    [0xFFFFFFFF, 0x00000019, 0xFFFFAC00, 0x00001F0C].map decode =
      [.fault 0xFF, .fault 0x19, .op (.add .a .b .c), .op (.jmp 3)] := by decide

/-- X1: the encoder's words. -/
theorem test_encode :
    [Instr.add .d .d .d, .imm .a 5, .cmp .a .b, .push .a, .jmp 8191, .je 7, .call 0, .stackDiv, .ret].map encode =
      [0x0001FF00, 0x00002C04, 0x00002C0B, 0x00000405, 0x00FFF80C, 0x0000380D, 0x00000016, 0x0000000A, 0x00000015] := by
  decide

/-! ### Boundary formats: X2, 30_encoding.md R78, X10 -/

theorem test_parse_literals :
    ["8191", "#1fff", "$1111111111111", "8192", "abc"].map parseLiteral =
      [.value 8191, .value 8191, .value 8191, .tooBig, .invalidDigit] := by decide

/-- A character that is no digit of the base: no point left open can make the text parse. -/
theorem test_parse_nonDigits :
    ["0z", "#Fg", "+5-", "++5", "ABC", "$12", "0x1f", "5 #1"].map parseLiteral = List.replicate 8 .invalidDigit := by decide

/-- A value of more than 32 bits fails, with either error (N12). -/
theorem test_parse_huge : parseLiteral "4294967296" = .tooBig ∨ parseLiteral "4294967296" = .invalidDigit :=
  parseReading_of_large (v := 4294967296) (by decide) (by decide) (by decide)

/-- Form feed, vertical tab and U+00A0 are white space (log entry 13); a leading zero is an open spelling, and `0` is not. -/
theorem test_parse_open_spellings :
    ["\x0C5", "5\x0B", "\u00A05", "05", "#1F", "+5", "0", "#1f"].map
      (fun s => isOpenSpelling s.toList (readText s.toList)) = [true, true, true, true, true, true, false, false] := by decide

theorem test_render : [Instr.imm .a 5, .add .a .b .c, .stackDiv].map render = ["Imm A 5", "Add A B C", "StackDiv"] := by
  decide

theorem test_persist :
    persistDigits 0x00002C04 = [4, 0, 0xC, 2, 0, 0, 0, 0] ∧ ofPersistDigits [0, 0, 0xC, 0xA, 1, 0, 0, 0] = 0x0001AC00 := by
  decide

/-! ### Arithmetic: VA and VI -/

/-- VA2. -/
theorem test_add_wraps :
    regsAfter [.c, .pc] (start [0x0001AC00] { z with a := 0xFFFFFFFF, b := 1, c := 7 } []) = some [0, 1] := by decide
/-- VA18, the instruction at index 4. -/
theorem test_add_reads_advanced_pc :
    regsAfter [.c, .pc] (start [0, 0, 0, 0, 0x00019900] { z with pc := 4 } []) = some [5, 5] := by decide
/-- VA4. -/
theorem test_sub_wraps :
    regsAfter [.c, .a, .b] (start [0x0001AC01] { z with a := 3, b := 5 } []) = some [0xFFFFFFFE, 3, 5] := by decide
/-- VA6. -/
theorem test_sub_source_is_destination :
    regsAfter [.b] (start [0x00016B01] { z with b := 1 } []) = some [0xFFFFFFFF] := by decide
/-- VA9. -/
theorem test_mul_low_word :
    regsAfter [.c] (start [0x0001AC02] { z with a := 0xFFFFFFFF, b := 0xFFFFFFFF } []) = some [1] := by decide
/-- VA10. -/
theorem test_div : regsAfter [.c] (start [0x0001AC03] { z with a := 7, b := 2 } []) = some [3] := by decide
/-- VA13. -/
theorem test_div_by_zero :
    statusAfter (start [0x0001AC03] { z with a := 7, c := 9 } []) = some (.faulted (.divisionByZero 0)) := by decide
/-- VI2. -/
theorem test_imm_largest : regsAfter [.d] (start [0x00FFFF04] z []) = some [8191] := by decide
/-- VI5. -/
theorem test_imm_pc : regsAfter [.pc] (start [0x00003904] z []) = some [7] := by decide

/-! ### Stack: VS and VK -/

/-- VS5. -/
theorem test_push_sp_pushes_old_value :
    (nextOf (step (start [0x00000005] { z with sp := 3 } []))).map (fun t => (t.readReg .sp, t.data.cells)) =
      some (4, [(3, 3)]) := by decide
/-- VS3. -/
theorem test_push_overflow :
    statusAfter (start [0x00000405] { z with a := 7, sp := 15 } []) = some (.faulted (.stackOverflow 15)) := by decide
/-- VS10. -/
theorem test_pop_sp : regsAfter [.sp] (start [0x00000006] { z with sp := 2 } [(1, 9)]) = some [9] := by decide
/-- VS12. -/
theorem test_pop_unreadable :
    (nextOf (step (start [0x00000406] { z with sp := 20 } []))).map (fun t => (t.readReg .sp, t.status)) =
      some (19, .faulted (.memoryRead 19)) := by decide
/-- VK12. -/
theorem test_stackadd :
    (nextOf (step (start [0x00000007] { z with sp := 3 } [(0, 1), (1, 2), (2, 3)]))).map
      (fun t => (t.readReg .sp, t.data.cells)) = some (2, [(0, 1), (1, 5), (2, 3)]) := by decide
/-- VK11. -/
theorem test_stackadd_one_word :
    (nextOf (step (start [0x00000007] { z with sp := 1 } [(0, 5)]))).map (fun t => (t.readReg .sp, t.status)) =
      some (0, .faulted (.stackUnderflow 0)) := by decide
/-- VK3. -/
theorem test_stacksub :
    wordsAfter [0] (start [0x00000008] { z with sp := 2 } [(0, 3), (1, 10)]) = some [some 0xFFFFFFF9] := by decide
/-- VK4. -/
theorem test_stackmul :
    wordsAfter [0] (start [0x00000009] { z with sp := 2 } [(0, 10), (1, 3)]) = some [some 30] := by decide
/-- VK5. -/
theorem test_stackdiv :
    wordsAfter [0] (start [0x0000000A] { z with sp := 2 } [(0, 10), (1, 3)]) = some [some 3] := by decide
/-- VK7. -/
theorem test_stackdiv_by_zero :
    (nextOf (step (start [0x0000000A] { z with sp := 2 } [(0, 10)]))).map (fun t => (t.readReg .sp, t.status)) =
      some (0, .faulted (.divisionByZero 0)) := by decide

/-! ### Compare and branch: VC, V-J, VB -/

/-- VC1. -/
theorem test_cmp_both_zero : regsAfter [.flag] (start [0x00002C0B] { z with flag := 0x55 } []) = some [9] := by decide
/-- VC10. -/
theorem test_cmp_unsigned :
    regsAfter [.flag] (start [0x00002C0B] { z with a := 0x80000000, b := 1 } []) = some [20] := by decide
/-- VB2. -/
theorem test_jmp : regsAfter [.pc] (start [0x00FFF80C] z []) = some [8191] := by decide
/-- V-J: one column a jump, the eight rows in the table's order. -/
def column (w : Word) : List (Option (List Nat)) :=
  [9, 19, 18, 20, 8, 12, 10, 0].map fun f => regsAfter [.pc] (start [w] { z with flag := f } [])
/-- The column of a table whose rows say taken (true) or not taken. -/
def taken (rows : List Bool) : List (Option (List Nat)) := rows.map fun b => some [if b then 7 else 1]
theorem test_je : column 0x0000380D = taken [true, false, false, false, true, true, true, false] := by decide
theorem test_jne : column 0x0000380E = taken [false, true, true, true, false, false, false, false] := by decide
theorem test_jg : column 0x0000380F = taken [false, false, false, true, false, true, false, false] := by decide
theorem test_jge : column 0x00003810 = taken [false, false, false, false, false, true, false, false] := by decide
theorem test_jl : column 0x00003811 = taken [false, true, true, false, false, false, true, false] := by decide
theorem test_jle : column 0x00003812 = taken [false, false, false, false, false, false, true, false] := by decide
theorem test_jz : column 0x00003813 = taken [true, true, false, false, false, false, false, false] := by decide
theorem test_jnz : column 0x00003814 = taken [false, false, true, true, true, true, true, true] := by decide

/-! ### Call, Ret, Fn, skipping: VF, VP -/

/-- VF1, the instruction at index 4. -/
theorem test_call :
    (nextOf (step (start [0, 0, 0, 0, 0x00000016] { z with pc := 4 } []))).map
      (fun t => (t.readReg .sp, t.readReg .pc, t.data.cells)) = some (1, 1, [(0, 5)]) := by decide
/-- VF2. -/
theorem test_call_overflow :
    (nextOf (step (start [0, 0, 0, 0, 0x00000016] { z with pc := 4, sp := 15 } []))).map
      (fun t => (t.readReg .pc, t.status)) = some (5, .faulted (.stackOverflow 15)) := by decide
/-- VF4. -/
theorem test_ret : regsAfter [.sp, .pc] (start [0x00000015] { z with sp := 1 } [(0, 5)]) = some [0, 5] := by decide
/-- VF9. -/
theorem test_ret_skipped :
    (nextOf (step (skipping (start [0x00000015] { z with sp := 1 } [(0, 5)])))).map
      (fun t => (t.readReg .sp, t.readReg .pc, t.mode)) = some (1, 1, .running) := by decide
/-- VF6. -/
theorem test_fn : (nextOf (step (start [0x00000017] z []))).map State.mode = some .skippingBody := by decide
/-- VP2: a division by zero that is skipped raises nothing. -/
theorem test_skipped_div :
    nextOf (step (skipping (start [0x0001AC03] { z with a := 2 } []))) =
      some (skipping (start [0x0001AC03] { z with a := 2, pc := 1 } [])) := by decide
/-- VP7. -/
theorem test_skipped_unknown_opcode :
    statusAfter (skipping (start [0x00000019] z [])) = some (.faulted (.unknownOpcode 0x19)) := by decide

/-! ### Syscall: VY -/

/-- VY1. -/
theorem test_syscall_exit : statusAfter (start [0x00000018] { z with b := 42 } []) = some (.exited 42) := by decide
/-- VY4: two of three bytes, and SP is restored. -/
theorem test_syscall_read :
    (nextOf (step (withHost (start [0x00000018] { z with sp := 3, a := 1, c := 4, d := 2 } [])
      [.line [0x61, 0x62, 0x0A]] []))).map (fun t => (t.readReg .sp, t.data.cells)) = some (3, [(4, 97), (5, 98)]) := by
  decide
/-- VY6. -/
theorem test_syscall_read_overflow :
    (nextOf (step (withHost (start [0x00000018] { z with a := 1, c := 13, d := 8 } []) [.line [1, 2, 3, 4]] []))).map
      (fun t => (t.readReg .sp, t.data.cells, t.status)) =
      some (15, [(13, 1), (14, 2)], .faulted (.stackOverflow 15)) := by decide
/-- VY10: two words are sent before the read outside the data memory. -/
theorem test_syscall_write_unreadable :
    (nextOf (step (withHost (start [0x00000018] { z with a := 2, c := 14, d := 4 } [(14, 65), (15, 66)])
      [] [.ok, .ok]))).map (fun t => (t.host.sent, t.status)) =
      some ([⟨65, true⟩, ⟨66, true⟩], .faulted (.memoryRead 16)) := by decide
/-- VY12. -/
theorem test_syscall_selector_whole :
    statusAfter (start [0x00000018] { z with a := 0x100 } []) = some (.faulted (.unimplementedSyscall 256)) := by decide

/-! ### Reset, fetch, and the host's placement: 10_state.md R34, VE8 -/

theorem test_reset : State.reset.regs = z ∧ State.reset.mode = .running ∧ State.reset.status = .live := by decide
/-- VE8. -/
theorem test_fetch_past_end :
    (nextOf (step (start [0x00000C04] { z with pc := 1 } []))).map (fun t => (t.readReg .pc, t.status)) =
      some (1, .faulted (.noNextInstruction 1)) := by decide
/-- X3's first word, placed after reset. -/
theorem test_withFetchWord :
    regsAfter [.a, .pc] (State.reset.withFetchWord 32 0x00002C04) = some [5, 1] ∧
      decodeTableWord 32 0x00002C04 = some (.imm .a 5) ∧ decodeTableWord 32 0x19 = none := by decide

/-! ### Witnesses

Each shows a state and operands that meet all hypotheses of the statement it is named after, one for each clause. -/

/-- Every state of the tests meets the invariant if its cells are canonical. -/
theorem start_inv {prog : List Word} {regs : RegFile} {cells : List (Nat × Word)}
    (h : Memory.wf { capacity := 16, cells := cells } = true) (hp : prog.length ≤ 2 ^ 32) :
    (start prog regs cells).Inv := ⟨h, by show 16 ≤ 2 ^ 32; decide, hp⟩

theorem witness_DecodeOfEncodeIsIdentity :
    TagMap.Injective Config.opcodeTag ∧ (Instr.imm .d 8191).wellFormed = true := ⟨Config.opcodeTag_injective, by decide⟩

theorem witness_EncodeOfDecodeIffDontCareBitsZero :
    (decodeWith Config.opcodeTag 0xFFFFAC00 = .op (.add .a .b .c) ∧
      decodeWith Config.opcodeTag 0x0001AC00 = .op (.add .a .b .c)) ∧
    TagMap.Injective Config.opcodeTag ∧ (Instr.jmp 8191).wellFormed = true :=
  ⟨by decide, Config.opcodeTag_injective, by decide⟩

theorem witness_DecodeIgnoresDontCareBits :
    (decodeWith Config.opcodeTag 0x0001AC00 = .op (.add .a .b .c) ∧
      ((0x0001AC00 : Word) ^^^ 0xFFFFAC00) &&& ~~~ (Instr.add .a .b .c).mnemonic.shape.dontCare = 0) ∧
    (Instr.jmp 8191).wellFormed = true := by decide

theorem witness_EncodeComposesFields : (Instr.imm .d 8191).wellFormed = true ∧ (Instr.call 0).wellFormed = true := by
  decide

theorem witness_StepRunsDecodedInstruction :
    let s := start [0x0001AC00] z []
    s.status = .live ∧ s.mode = .running ∧ s.prog[(s.readReg .pc).toNat]? = some 0x0001AC00 ∧
      decodeWith Config.opcodeTag 0x0001AC00 = .op (.add .a .b .c) := by decide

/-- Four clauses: a fetch at the program's length, an unknown tag, a skipped Ret, and an instruction that runs. -/
theorem witness_StepFollowsTheCycle :
    (let s := start [0] { z with pc := 1 } []
     s.status = .live ∧ s.prog.length ≤ (s.readReg .pc).toNat) ∧
    (let s := start [0x19] z []
     s.status = .live ∧ s.prog[(s.readReg .pc).toNat]? = some 0x19 ∧ decodeWith Config.opcodeTag 0x19 = .fault 0x19) ∧
    (let s := skipping (start [0x15] z [])
     s.status = .live ∧ s.prog[(s.readReg .pc).toNat]? = some 0x15 ∧ decodeWith Config.opcodeTag 0x15 = .op .ret ∧
        s.mode = .skippingBody) ∧
    (let s := start [0x18] z []
     s.status = .live ∧ s.prog[(s.readReg .pc).toNat]? = some 0x18 ∧ decodeWith Config.opcodeTag 0x18 = .op .syscall ∧
        s.mode = .running) := by decide

theorem witness_FetchPastTheEndEndsTheRun :
    let s := start [0] { z with pc := 1 } []
    s.status = .live ∧ s.prog.length ≤ (s.readReg .pc).toNat ∧
      ∃ t, stepWith Config.opcodeTag s = .next t ∧ t.status = .faulted (.noNextInstruction 1) :=
  ⟨by decide, by decide, _, rfl, by decide⟩

theorem witness_UnknownOpcodeRaisedInEitherMode :
    let s := skipping (start [0x19] z [])
    s.status = .live ∧ s.prog[(s.readReg .pc).toNat]? = some 0x19 ∧
      (∀ m, (Config.opcodeTag m).toNat ≠ (0x19 : Word).toNat % 256) ∧
      ∃ t, stepWith Config.opcodeTag s = .next t ∧ t.status = .faulted (.unknownOpcode 0x19) :=
  ⟨by decide, by decide, fun m => by cases m <;> decide, _, rfl, by decide⟩

theorem witness_SkippedInstructionIsInert :
    let s := skipping (start [0x18] z [])
    s.status = .live ∧ s.mode = .skippingBody ∧ s.prog[(s.readReg .pc).toNat]? = some 0x18 ∧
      decodeWith Config.opcodeTag 0x18 = .op .syscall := by decide

theorem witness_EndedRunTakesNoStep :
    ({ start [0] z [] with status := .exited 0 } : State).status ≠ .live ∧
      ({ start [0] z [] with status := .faulted .hostIo } : State).status ≠ .live := by decide

/-- A row that goes on, and one that ends the run. -/
theorem witness_EngineStateTransitions :
    (let s := start [0x17] z []
     s.status = .live ∧ ∃ t, stepWith Config.opcodeTag s = .next t ∧ t.mode = .skippingBody) ∧
    (let s := start [0x18] z []
     s.status = .live ∧ ∃ t, stepWith Config.opcodeTag s = .next t ∧ t.status ≠ .live) :=
  ⟨⟨by decide, _, rfl, by decide⟩, ⟨by decide, _, rfl, by decide⟩⟩

theorem witness_ModeChangesOnlyAtFnAndRet :
    (let s := start [0x17] z []
     s.mode = .running ∧ ∃ t, stepWith Config.opcodeTag s = .next t) ∧
    (let s := skipping (start [0x15] z [])
     s.mode = .skippingBody ∧ s.decodesTo Config.opcodeTag .ret ∧ ∃ t, stepWith Config.opcodeTag s = .next t) :=
  ⟨⟨rfl, _, rfl⟩, ⟨rfl, ⟨0x15, rfl, by decide⟩, _, rfl⟩⟩

theorem witness_ExitOnlyBySyscallZero :
    (let s := start [0x18] { z with b := 42 } []
     (s.readReg .a).toNat = 0 ∧ ∃ t, stepWith Config.opcodeTag s = .next t ∧ t.status = .exited 42) ∧
    ({ start [0] z [] with status := .exited 42 } : State).status = .exited 42 :=
  ⟨⟨by decide, _, rfl, by decide⟩, rfl⟩

theorem witness_InstructionStoreIsImmutable : ∃ t, stepWith Config.opcodeTag (start [0x05] z []) = .next t := ⟨_, rfl⟩

theorem witness_StepKeepsInvariant :
    let s := start [0x00000405] { z with a := 7 } []
    s.Inv ∧ ∃ t, step s = .next t ∧ t.data.cells = [(0, 7)] :=
  ⟨start_inv (by decide) (by decide), _, rfl, by decide⟩

theorem witness_ConstructionGivesInitialState :
    ([0x18] : List Word).length ≤ 2 ^ 32 ∧ ([5, 0, 7] : List Word).length ≤ 2 ^ 32 := by decide

theorem witness_RegistersChangeOnlyAsTabled :
    (∃ t, exec .stackAdd (start [] { z with sp := 2 } [(0, 1), (1, 2)]) = .next t) ∧ Reg.a ∉ writtenRegs .stackAdd :=
  ⟨⟨_, rfl⟩, by decide⟩

theorem witness_StepChangesRegistersOnlyByWriter :
    let s := start [0x0000120B] { z with flag := 20 } []
    ∃ t, stepWith Config.opcodeTag s = .next t ∧ Reg.flag ≠ .pc ∧ t.readReg .flag ≠ s.readReg .flag :=
  ⟨_, rfl, by decide, by decide⟩

/-- An instruction that stores, and an address beside the one it stores to. -/
theorem witness_DataWordsChangeOnlyAsTabled :
    let s := start [] { z with a := 7 } []
    s.Inv ∧ (∃ t, exec (.push .a) s = .next t) ∧ ¬ mayStore (.push .a) s 1 :=
  ⟨start_inv (by decide) (by decide), ⟨_, rfl⟩, by show ¬ (1 = 0); decide⟩

theorem witness_ModeStatusAndHostFrame :
    let s := start [] { z with a := 3 } []
    (∃ t, exec .syscall s = .next t) ∧ Instr.syscall ≠ .fn ∧
      ¬ (Instr.syscall = .syscall ∧ ((s.readReg .a).toNat = 1 ∨ (s.readReg .a).toNat = 2)) :=
  ⟨⟨_, rfl⟩, by decide, by decide⟩

theorem witness_LiveStepAlwaysAnswers :
    (start [0] z []).status = .live ∧
      (withHost (start [0x18] { z with a := 1 } []) [.silent] []).status = .live := by decide

/-- One clause each: overflow, underflow, an unreadable word, the host, a division, a selector. -/
theorem witness_ErrorsRaisedOnlyAsListed :
    (∃ t, exec (.call 0) (start [] { z with sp := 15 } []) = .next t ∧ t.status = .faulted (.stackOverflow 15)) ∧
    (∃ t, exec .ret (start [] z []) = .next t ∧ t.status = .faulted (.stackUnderflow 0)) ∧
    (∃ t, exec (.pop .a) (start [] { z with sp := 17 } []) = .next t ∧ t.status = .faulted (.memoryRead 16)) ∧
    (∃ t, exec .syscall (withHost (start [] { z with a := 1 } []) [.fail] []) = .next t ∧ t.status = .faulted .hostIo) ∧
    (∃ t, exec (.div .a .b .c) (start [] { z with pc := 1 } []) = .next t ∧ t.status = .faulted (.divisionByZero 0)) ∧
    (∃ t, exec .syscall (start [] { z with a := 3 } []) = .next t ∧ t.status = .faulted (.unimplementedSyscall 3)) :=
  ⟨⟨_, rfl, by decide⟩, ⟨_, rfl, by decide⟩, ⟨_, rfl, by decide⟩, ⟨_, rfl, by decide⟩, ⟨_, rfl, by decide⟩,
    ⟨_, rfl, by decide⟩⟩

theorem witness_DivStoresQuotient : (start [] { z with b := 1 } []).readReg .b ≠ 0 := by decide

theorem witness_DivisionByZeroIsRaised :
    (start [] z []).readReg .b = 0 ∧
    (let s := start [] { z with sp := 2 } [(0, 10)]
     2 ≤ (s.readReg .sp).toNat ∧ s.data.read ((s.readReg .sp).toNat - 1) = some 0) := by decide

theorem witness_ImmLoadsLiteral : (Instr.imm .sp 8191).wellFormed = true := by decide

/-- SP at the last slot a push may use. -/
theorem witness_PushStoresAtStackPointer :
    let s := start [] { z with sp := 14 } []
    s.Inv ∧ (s.readReg .sp).toNat + 1 < s.data.capacity := ⟨start_inv (by decide) (by decide), by decide⟩

theorem witness_PushAndCallOverflow :
    let s := start [] { z with sp := 15 } []
    ((∃ r, Instr.push .a = .push r) ∨ ∃ k, Instr.push .a = .call k) ∧
      ((∃ r, Instr.call 0 = .push r) ∨ ∃ k, Instr.call 0 = .call k) ∧ s.data.capacity ≤ (s.readReg .sp).toNat + 1 :=
  ⟨.inl ⟨_, rfl⟩, .inr ⟨_, rfl⟩, by decide⟩

theorem witness_PopLoadsTopWord :
    let s := start [] { z with sp := 16 } [(15, 9)]
    1 ≤ (s.readReg .sp).toNat ∧ s.data.read ((s.readReg .sp).toNat - 1) = some 9 ∧ Reg.a ≠ .sp := by decide

theorem witness_PopFromEmptyStackUnderflows :
    ((∃ r, Instr.pop .a = .pop r) ∨ Instr.pop .a ∈ [Instr.ret, .stackAdd, .stackSub, .stackMul, .stackDiv]) ∧
      ((start [] z []).readReg .sp).toNat = 0 := ⟨.inl ⟨_, rfl⟩, by decide⟩

/-- SP one past the capacity plus one; and exactly one word on the stack. -/
theorem witness_FailingPopsLeaveLoweredStackPointer :
    (let s := start [] { z with sp := 17 } []
     (∃ r, Instr.pop .a = .pop r) ∧ 1 ≤ (s.readReg .sp).toNat ∧ s.data.capacity ≤ (s.readReg .sp).toNat - 1) ∧
    (let s := start [] { z with sp := 1 } []
     Instr.stackDiv ∈ [Instr.stackAdd, .stackSub, .stackMul, .stackDiv] ∧ (s.readReg .sp).toNat = 1 ∧
        1 ≤ s.data.capacity) := ⟨⟨⟨_, rfl⟩, by decide⟩, by decide⟩

theorem witness_StackArithmeticCombinesTopWords :
    let s := start [] { z with sp := 16 } [(14, 3), (15, 10)]
    s.Inv ∧ 2 ≤ (s.readReg .sp).toNat ∧ s.data.read ((s.readReg .sp).toNat - 1) = some 10 ∧
      s.data.read ((s.readReg .sp).toNat - 2) = some 3 := ⟨start_inv (by decide) (by decide), by decide⟩

theorem witness_StackDivStoresQuotient :
    let s := start [] { z with sp := 2 } [(0, 3), (1, 10)]
    s.Inv ∧ 2 ≤ (s.readReg .sp).toNat ∧ s.data.read ((s.readReg .sp).toNat - 1) = some 10 ∧
      s.data.read ((s.readReg .sp).toNat - 2) = some 3 ∧ (10 : Word) ≠ 0 :=
  ⟨start_inv (by decide) (by decide), by decide⟩

theorem witness_CmpFlagInvariants : ∃ t, exec (.cmp .a .b) (start [] z []) = .next t := ⟨_, rfl⟩

/-- A jump taken and one not taken, at the largest target. -/
theorem witness_JumpsTestTheirFlagBits :
    8191 ≤ 8191 ∧ ((start [] { z with flag := 12 } []).readReg .flag).getLsbD 3 = true ∧
      ((start [] z []).readReg .flag).getLsbD 3 = false := by decide

theorem witness_BranchOutcomesAfterCmp :
    ∃ t, exec (.cmp .a .b) (start [] { z with b := 5 } []) = .next t ∧
      (start [] { z with flag := 19 } []).readReg .flag = t.readReg .flag ∧ 8191 ≤ 8191 :=
  ⟨_, rfl, by decide, by decide⟩

theorem witness_CallPushesReturnAndEnters :
    let s := start [] { z with sp := 14 } []
    s.Inv ∧ (Instr.call 8191).wellFormed = true ∧ (s.readReg .sp).toNat + 1 < s.data.capacity :=
  ⟨start_inv (by decide) (by decide), by decide, by decide⟩

theorem witness_RetPopsIntoPc :
    let s := start [] { z with sp := 1 } [(0, 5)]
    1 ≤ (s.readReg .sp).toNat ∧ s.data.read ((s.readReg .sp).toNat - 1) = some 5 := by decide

/-- X6's function: Fn, a body of one word, Ret. -/
theorem witness_FunctionBodyIsInertUnderFallThrough :
    let s := start [0x17, 0x00015504, 0x15] z []
    s.Inv ∧ s.status = .live ∧ s.mode = .running ∧
      (∃ w, s.prog[(s.readReg .pc).toNat]? = some w ∧ decodeWith Config.opcodeTag w = .op .fn) ∧
      (∀ j, 1 ≤ j → j ≤ 1 →
        ∃ w i, s.prog[(s.readReg .pc).toNat + j]? = some w ∧ decodeWith Config.opcodeTag w = .op i ∧ i ≠ .ret) ∧
      ∃ w, s.prog[(s.readReg .pc).toNat + 1 + 1]? = some w ∧ decodeWith Config.opcodeTag w = .op .ret :=
  ⟨start_inv (by decide) (by decide), rfl, rfl, ⟨0x17, rfl, by decide⟩,
    fun j h1 h2 => by
      obtain rfl : j = 1 := by omega
      exact ⟨0x00015504, .imm .b 42, rfl, by decide, by decide⟩,
    ⟨0x15, rfl, by decide⟩⟩

theorem witness_PushesThenPopsRestore :
    let s := start [] { z with a := 1, b := 2 } []
    s.Inv ∧ Reg.sp ∉ [Reg.a, .b] ∧ s.status = .live ∧
      ∃ t, execAll ([Reg.a, .b].map .push) s = .next t ∧ t.status = .live ∧
        t.data = (start [] { z with sp := 2 } [(0, 1), (1, 2)]).data ∧
        (start [] { z with sp := 2 } [(0, 1), (1, 2)]).readReg .sp = t.readReg .sp :=
  ⟨start_inv (by decide) (by decide), by decide, rfl, _, rfl, by decide, by decide, by decide⟩

theorem witness_RetReturnsAfterCall :
    let s := start [] { z with pc := 5 } []
    s.Inv ∧ s.status = .live ∧ ∃ t, exec (.call 0) s = .next t ∧ t.status = .live ∧
      (start [] { z with sp := 1 } [(0, 5)]).data = t.data ∧
      (start [] { z with sp := 1 } [(0, 5)]).readReg .sp = t.readReg .sp :=
  ⟨start_inv (by decide) (by decide), rfl, _, rfl, by decide, by decide, by decide⟩

/-- The last buffer that fits, and D = 0 with C past the end of the data memory. -/
theorem witness_SyscallReadsLine :
    (let s := withHost (start [] { z with a := 1, c := 13, d := 2 } []) [.line [1, 2, 3]] []
     s.Inv ∧ (s.readReg .a).toNat = 1 ∧ s.nextLine = .line [1, 2, 3] ∧
        (s.readReg .c).toNat + min [1, 2, 3].length (s.readReg .d).toNat < s.data.capacity) ∧
    (let s := withHost (start [] { z with a := 1, c := 99, d := 0 } []) [.line [1]] []
     s.Inv ∧ (s.readReg .a).toNat = 1 ∧ s.nextLine = .line [1] ∧ min [1].length (s.readReg .d).toNat = 0) :=
  ⟨⟨start_inv (regs := z) (by decide) (by decide), by decide, rfl, by decide⟩,
    ⟨start_inv (regs := z) (by decide) (by decide), by decide, rfl, by decide⟩⟩

/-- VY6: the third byte overflows; and an overflow at the first byte. -/
theorem witness_SyscallReadOverflowLeavesBufferPointer :
    (let s := withHost (start [] { z with a := 1, c := 13, d := 8 } []) [.line [1, 2, 3, 4]] []
     s.Inv ∧ (s.readReg .a).toNat = 1 ∧ s.nextLine = .line [1, 2, 3, 4] ∧
        2 < min [1, 2, 3, 4].length (s.readReg .d).toNat ∧ (s.readReg .c).toNat + 2 < s.data.capacity ∧
        s.data.capacity ≤ (s.readReg .c).toNat + 2 + 1) ∧
    (let s := withHost (start [] { z with a := 1, c := 15, d := 1 } []) [.line [1]] []
     s.Inv ∧ (s.readReg .a).toNat = 1 ∧ s.nextLine = .line [1] ∧ 0 < min [1].length (s.readReg .d).toNat ∧
        s.data.capacity ≤ (s.readReg .c).toNat + 0 + 1) :=
  ⟨⟨start_inv (regs := z) (by decide) (by decide), by decide, rfl, by decide, by decide, by decide⟩,
    ⟨start_inv (regs := z) (by decide) (by decide), by decide, rfl, by decide, by decide⟩⟩

/-- VY8. -/
theorem witness_SyscallWritesWords :
    let s := withHost (start [] { z with a := 2, c := 0, d := 2 } [(0, 72), (1, 105)]) [] [.ok, .ok]
    (s.readReg .a).toNat = 2 ∧ [72, 105].length = (s.readReg .d).toNat ∧
      (∀ j, j < [72, 105].length → s.data.read ((s.readReg .c).toNat + j) = ([72, 105] : List Word)[j]?) ∧
      ∀ j, j < [72, 105].length → s.host.ackAnswer (s.host.writeReqs + j) = .ok := by
  refine ⟨by decide, by decide, ?_, ?_⟩
  · intro j hj; match j, hj with
    | 0, _ => decide
    | 1, _ => decide
  · intro j hj; match j, hj with
    | 0, _ => rfl
    | 1, _ => rfl

/-- The data memory's end after one word, as in VY10; and a host that refuses the second word. -/
theorem witness_SyscallWriteStopsAtFirstFailure :
    (let s := withHost (start [] { z with a := 2, c := 15, d := 2 } [(15, 66)]) [] [.ok]
     (s.readReg .a).toNat = 2 ∧ [66].length < (s.readReg .d).toNat ∧
        s.data.read ((s.readReg .c).toNat + 0) = some 66 ∧ s.host.ackAnswer (s.host.writeReqs + 0) = .ok ∧
        s.data.capacity ≤ (s.readReg .c).toNat + [66].length) ∧
    (let s := withHost (start [] { z with a := 2, c := 0, d := 2 } [(0, 72), (1, 105)]) [] [.ok, .fail]
     (s.readReg .a).toNat = 2 ∧ [72].length < (s.readReg .d).toNat ∧
        s.data.read ((s.readReg .c).toNat + 0) = some 72 ∧ s.host.ackAnswer (s.host.writeReqs + 0) = .ok ∧
        s.data.read ((s.readReg .c).toNat + [72].length) = some 105 ∧
        s.host.ackAnswer (s.host.writeReqs + [72].length) = .fail) :=
  ⟨⟨by decide, by decide, by decide, rfl, by decide⟩, ⟨by decide, by decide, by decide, rfl, by decide, rfl⟩⟩

/-- The third clause twice: silent at the first word, the last of the data memory, and silent after one accepted word. -/
theorem witness_HostFailureAndSilence :
    (let s := withHost (start [] { z with a := 1 } []) [.fail] []
     (s.readReg .a).toNat = 1 ∧ s.nextLine = .fail) ∧
    (let s := withHost (start [] { z with a := 1 } []) [.silent] []
     (s.readReg .a).toNat = 1 ∧ s.nextLine = .silent) ∧
    (let s := withHost (start [] { z with a := 2, c := 15, d := 1 } []) [] [.silent]
     (s.readReg .a).toNat = 2 ∧ ([] : List Word).length < (s.readReg .d).toNat ∧
        s.data.read ((s.readReg .c).toNat + ([] : List Word).length) = some 0 ∧
        s.host.ackAnswer (s.host.writeReqs + ([] : List Word).length) = .silent) ∧
    (let s := withHost (start [] { z with a := 2, c := 0, d := 2 } [(0, 72), (1, 105)]) [] [.ok, .silent]
     (s.readReg .a).toNat = 2 ∧ [72].length < (s.readReg .d).toNat ∧
        s.data.read ((s.readReg .c).toNat + 0) = some 72 ∧ s.host.ackAnswer (s.host.writeReqs + 0) = .ok ∧
        s.data.read ((s.readReg .c).toNat + [72].length) = some 105 ∧
        s.host.ackAnswer (s.host.writeReqs + [72].length) = .silent) :=
  ⟨⟨by decide, rfl⟩, ⟨by decide, rfl⟩, ⟨by decide, by decide, by decide, rfl⟩,
    ⟨by decide, by decide, by decide, rfl, by decide, rfl⟩⟩

theorem witness_OtherSelectorsAreUnimplemented :
    let s := start [] { z with a := 3 } []
    (s.readReg .a).toNat ≠ 0 ∧ (s.readReg .a).toNat ≠ 1 ∧ (s.readReg .a).toNat ≠ 2 := by decide

theorem witness_DataMemoryReadsLastWrite :
    (Memory.mk 16 [(15, 1)]).wf = true ∧ (Memory.mk 16 [(15, 1)]).write 15 0 = some (Memory.mk 16 []) := by decide

/-- A range at the end of the store, and one that passes it by one word. -/
theorem witness_DumpAndRangeRead :
    let s := start [1, 2, 3] { z with sp := 2 } []
    0 < (s.readReg .sp).toNat ∧ s.prog.length < 1 + 3 ∧ 1 + 2 ≤ s.prog.length := by decide

end Tests
end

/-!
PROOFS. The machine's state (10_state.md): the register file, the engine mode and the instruction store. The facts about a
step come first: a fetched word decodes to one instruction, and a step that answers takes one of three ways.
-/

namespace Sys2Proof.Machine

/-! ### Construction and mode -/

@[simp] theorem State.construct_readReg (p : List Word) (d : Memory) (ls : List HostLine) (ks : List HostAck) (r : Reg) :
    (State.construct p d ls ks).readReg r = 0 := by
  cases r <;> rfl

/-- The skip filter's one effect (40_step.md R95). -/
@[simp] theorem State.skip_mode (i : Instr) (s : State) :
    (s.skip i).mode = if i = .ret then .running else s.mode := by
  split
  next hi => rw [hi, State.skip_ret]
  next hi => rw [State.skip_of_ne_ret hi]

/-- In Running only Fn moves the mode (44_call_fn.md R172). -/
theorem exec_next_mode {i : Instr} {s t : State} (h : exec i s = .next t) :
    t.mode = if i = .fn then .skippingBody else s.mode := by
  split
  next hi => subst hi; cases h; rfl
  next hi =>
    obtain ⟨-, hmode, -⟩ := exec_next h
    exact hmode hi

/-! ### The decoded instruction of a step -/

theorem State.decodesTo_iff_eq {tag : TagMap} {s : State} {i : Instr} (h : s.decodesTo tag i) (j : Instr) :
    s.decodesTo tag j ↔ j = i := by
  constructor
  · rintro ⟨v, hv, hj⟩
    obtain ⟨w, hw, hi⟩ := h
    obtain rfl : w = v := Option.some.inj (hw.symm.trans hv)
    exact Decoded.op.inj (hj.symm.trans hi)
  · rintro rfl
    exact h

theorem State.not_decodesTo_of_fetch_none {tag : TagMap} {s : State} (h : s.fetch = none) (i : Instr) :
    ¬ s.decodesTo tag i := by
  rintro ⟨w, hw, -⟩
  cases h.symm.trans hw

theorem State.not_decodesTo_of_fault {tag : TagMap} {s : State} {w : Word} {x : BitVec 8} (hw : s.fetch = some w)
    (hx : decodeWith tag w = .fault x) (i : Instr) : ¬ s.decodesTo tag i := by
  rintro ⟨v, hv, hi⟩
  obtain rfl : w = v := Option.some.inj (hw.symm.trans hv)
  cases hx.symm.trans hi

/-- A step that answers raises an error before any instruction is decoded, skips the decoded instruction, or executes
it (40_step.md R91). -/
theorem stepWith_next_cases {tag : TagMap} {s t : State} (h : stepWith tag s = .next t) :
    ((∀ i, ¬ s.decodesTo tag i) ∧ ∃ e, t = s.raise e ∨ t = s.advancePc.raise e) ∨
    (∃ i, s.decodesTo tag i ∧ s.mode = .skippingBody ∧ t = s.advancePc.skip i) ∨
    (∃ i, s.decodesTo tag i ∧ s.mode = .running ∧ exec i s.advancePc = .next t) := by
  rcases stepWith_cases h with ⟨-, ho⟩ | ⟨-, hnone, ho⟩ |
    ⟨-, w, hw, ⟨x, hx, ho⟩ | ⟨i, hi, hm, ho⟩ | ⟨i, hi, hm, ho⟩⟩
  · cases ho
  · cases ho
    exact .inl ⟨State.not_decodesTo_of_fetch_none hnone, _, .inl rfl⟩
  · cases ho
    exact .inl ⟨State.not_decodesTo_of_fault hw hx, _, .inr rfl⟩
  · cases ho
    exact .inr (.inl ⟨i, ⟨w, hw, hi⟩, hm, rfl⟩)
  · exact .inr (.inr ⟨i, ⟨w, hw, hi⟩, hm, ho.symm⟩)

/-! ### What a step does to the instruction store and the mode -/

theorem stepWith_next_prog {tag : TagMap} {s t : State} (h : stepWith tag s = .next t) : t.prog = s.prog := by
  rcases stepWith_next_cases h with ⟨-, e, rfl | rfl⟩ | ⟨i, -, -, rfl⟩ | ⟨i, -, -, hx⟩
  · rfl
  · rfl
  · simp
  · obtain ⟨hstored, -, -⟩ := exec_next hx
    exact hstored.prog

/-- From Running, only a decoded Fn leads to SkippingBody. -/
theorem stepWith_next_skippingBody_iff {tag : TagMap} {s t : State} (h : stepWith tag s = .next t)
    (hrun : s.mode = .running) : t.mode = .skippingBody ↔ s.decodesTo tag .fn := by
  rcases stepWith_next_cases h with ⟨hno, e, rfl | rfl⟩ | ⟨i, -, hskip, -⟩ | ⟨i, hi, -, hx⟩
  · simp [hno, hrun]
  · simp [hno, hrun]
  · cases hrun.symm.trans hskip
  · rw [State.decodesTo_iff_eq hi, exec_next_mode hx]
    simp [hrun, eq_comm]

/-- From SkippingBody, only a decoded Ret leads back to Running. -/
theorem stepWith_next_running_iff {tag : TagMap} {s t : State} (h : stepWith tag s = .next t)
    (hskip : s.mode = .skippingBody) : t.mode = .running ↔ s.decodesTo tag .ret := by
  rcases stepWith_next_cases h with ⟨hno, e, rfl | rfl⟩ | ⟨i, hi, -, rfl⟩ | ⟨i, -, hrun, -⟩
  · simp [hno, hskip]
  · simp [hno, hskip]
  · rw [State.decodesTo_iff_eq hi]
    simp [hskip, eq_comm]
  · cases hrun.symm.trans hskip

/-- A decoded instruction inside a skipped body is passed over (40_step.md R95). -/
theorem stepWith_next_skipped {tag : TagMap} {s t : State} {i : Instr} (h : stepWith tag s = .next t)
    (hskip : s.mode = .skippingBody) (hi : s.decodesTo tag i) : t = s.advancePc.skip i := by
  rcases stepWith_next_cases h with ⟨hno, -⟩ | ⟨j, hj, -, ht⟩ | ⟨j, -, hrun, -⟩
  · exact absurd hi (hno i)
  · rw [(State.decodesTo_iff_eq hj i).mp hi, ht]
  · cases hrun.symm.trans hskip

/-! ### The statements -/

/-- Settles O16: the three ways of a step, with the modes that exec and the skip filter leave. -/
theorem modeChangesOnlyAtFnAndRet : Obligations.ModeChangesOnlyAtFnAndRet := by
  refine ⟨fun _ _ _ _ => rfl, fun _ _ _ _ => ⟨rfl, rfl⟩, fun tag s t h => ⟨stepWith_next_skippingBody_iff h, ?_⟩⟩
  intro hskip
  refine ⟨stepWith_next_running_iff h hskip, fun i hi => ?_⟩
  rw [stepWith_next_skipped h hskip hi]
  refine ⟨fun r hr => ?_, by simp, by simp⟩
  simp [hr]

/-- Settles O18: construction places PROGRAM, and each way of a step keeps the instruction store. -/
theorem instructionStoreIsImmutable : Obligations.InstructionStoreIsImmutable :=
  ⟨fun _ _ _ _ => rfl, fun _ _ _ => stepWith_next_prog⟩

/-- Settles O58: the read-after-write law of the register file, and the zeroed registers of construction. -/
theorem registerFileReadsLastWrite : Obligations.RegisterFileReadsLastWrite :=
  ⟨State.readReg_writeReg, State.construct_readReg⟩

end Sys2Proof.Machine

/-!
PROOFS. The codec's bit fields as numbers (30_encoding.md R61, R62, R70, R71): each field of a word is a quotient and a
remainder of its value, and a field that encode sets above the bits already used adds its value at its place.
-/

namespace Sys2Proof

/-! ### The fields decode reads (30_encoding.md R61) -/

/-- The bit field of length `n` at bit `p`, as a number. -/
theorem Word.toNat_extractLsb' (w : Word) (p n : Nat) : (w.extractLsb' p n).toNat = w.toNat / 2 ^ p % 2 ^ n := by
  rw [BitVec.extractLsb'_toNat, Nat.shiftRight_eq_div_pow]

@[simp] theorem Word.toNat_tag (w : Word) : (Word.tag w).toNat = w.toNat % 256 := by
  simp [Word.tag]

@[simp] theorem Word.toNat_idx_r1 (w : Word) : (Word.r1 w).idx.toNat = w.toNat / 2 ^ 8 % 8 := by
  rw [Word.r1, Reg.idx_ofIdx]
  exact Word.toNat_extractLsb' w 8 3

@[simp] theorem Word.toNat_idx_r2 (w : Word) : (Word.r2 w).idx.toNat = w.toNat / 2 ^ 11 % 8 := by
  rw [Word.r2, Reg.idx_ofIdx]
  exact Word.toNat_extractLsb' w 11 3

@[simp] theorem Word.toNat_idx_r3 (w : Word) : (Word.r3 w).idx.toNat = w.toNat / 2 ^ 14 % 8 := by
  rw [Word.r3, Reg.idx_ofIdx]
  exact Word.toNat_extractLsb' w 14 3

theorem Word.lit13_eq (w : Word) : Word.lit13 w = w.toNat / 2 ^ 11 % 2 ^ 13 := Word.toNat_extractLsb' w 11 13

/-- Decode faults with the word's tag, and only where no mnemonic has that tag (30_encoding.md R70). -/
theorem decodeWith_fault {tag : TagMap} {w : Word} {t : BitVec 8} (h : decodeWith tag w = .fault t) :
    t = Word.tag w ∧ mnemonicOf tag (Word.tag w) = none := by
  unfold decodeWith at h
  split at h <;> cases h
  exact ⟨rfl, ‹_›⟩

/-! ### The fields encode sets (30_encoding.md R71) -/

/-- A field placed above every bit of `w` that is set, and below bit 32, adds its value at its place. -/
theorem toNat_or_shiftLeft {w x : Word} {p : Nat} (hw : w.toNat < 2 ^ p) (hx : x.toNat * 2 ^ p < 2 ^ 32) :
    (w ||| x <<< p).toNat = w.toNat + x.toNat * 2 ^ p := by
  have hshift : (x <<< p).toNat = x.toNat <<< p := by
    rw [BitVec.toNat_shiftLeft, Nat.shiftLeft_eq, Nat.mod_eq_of_lt hx]
  rw [BitVec.toNat_or, hshift, Nat.or_comm, ← Nat.shiftLeft_add_eq_or_of_lt hw, Nat.shiftLeft_eq, Nat.add_comm]

/-- A register field placed by encode, at bit 8, 11 or 14. -/
theorem toNat_or_idx {w : Word} {p : Nat} (r : Reg) (hw : w.toNat < 2 ^ p) (hp : p ≤ 29) :
    (w ||| r.idx.zeroExtend 32 <<< p).toNat = w.toNat + r.idx.toNat * 2 ^ p := by
  have hidx : (r.idx.zeroExtend 32).toNat = r.idx.toNat := BitVec.toNat_setWidth_of_le (by decide)
  rw [toNat_or_shiftLeft hw, hidx]
  rw [hidx]
  calc r.idx.toNat * 2 ^ p
      < 2 ^ 3 * 2 ^ p := Nat.mul_lt_mul_of_pos_right r.idx.isLt (Nat.two_pow_pos p)
    _ = 2 ^ (3 + p) := (Nat.pow_add 2 3 p).symm
    _ ≤ 2 ^ 32 := Nat.pow_le_pow_right (by decide) (by omega)

/-- A Bit13Literal placed by encode, at bit 11. -/
theorem toNat_or_literal {w : Word} {k : Nat} (hw : w.toNat < 2 ^ 11) (hk : k ≤ 8191) :
    (w ||| BitVec.ofNat 32 k <<< 11).toNat = w.toNat + k * 2 ^ 11 := by
  have hlit : (BitVec.ofNat 32 k).toNat = k := Nat.mod_eq_of_lt (by omega)
  rw [toNat_or_shiftLeft hw, hlit]
  omega

@[simp] theorem toNat_encN (t : BitVec 8) : (encN t).toNat = t.toNat := BitVec.toNat_setWidth_of_le (by decide)

theorem toNat_encR (t : BitVec 8) (ra : Reg) : (encR t ra).toNat = t.toNat + ra.idx.toNat * 2 ^ 8 := by
  rw [encR, toNat_or_idx ra (by simpa using t.isLt) (by decide), toNat_encN]

theorem encR_lt (t : BitVec 8) (ra : Reg) : (encR t ra).toNat < 2 ^ 11 := by
  rw [toNat_encR]; omega

theorem toNat_encRR (t : BitVec 8) (ra rb : Reg) :
    (encRR t ra rb).toNat = t.toNat + (ra.idx.toNat * 2 ^ 8 + rb.idx.toNat * 2 ^ 11) := by
  rw [encRR, toNat_or_idx rb (encR_lt t ra) (by decide), toNat_encR, Nat.add_assoc]

theorem encRR_lt (t : BitVec 8) (ra rb : Reg) : (encRR t ra rb).toNat < 2 ^ 14 := by
  rw [toNat_encRR]; omega

theorem toNat_encRRR (t : BitVec 8) (ra rb rc : Reg) :
    (encRRR t ra rb rc).toNat =
      t.toNat + (ra.idx.toNat * 2 ^ 8 + rb.idx.toNat * 2 ^ 11 + rc.idx.toNat * 2 ^ 14) := by
  rw [encRRR, toNat_or_idx rc (encRR_lt t ra rb) (by decide), toNat_encRR, Nat.add_assoc]

theorem toNat_encRL (t : BitVec 8) (ra : Reg) {k : Nat} (hk : k ≤ 8191) :
    (encRL t ra k).toNat = t.toNat + (ra.idx.toNat * 2 ^ 8 + k * 2 ^ 11) := by
  rw [encRL, toNat_or_literal (encR_lt t ra) hk, toNat_encR, Nat.add_assoc]

theorem toNat_encL (t : BitVec 8) {k : Nat} (hk : k ≤ 8191) : (encL t k).toNat = t.toNat + k * 2 ^ 11 := by
  rw [encL, toNat_or_literal (by rw [toNat_encN]; omega) hk, toNat_encN]

/-! ### The statements -/

/-- Settles O4: the tag lookup decides between fault and instruction, and the mnemonic decides which fields are read. -/
theorem decodeExtractsFields : Obligations.DecodeExtractsFields := by
  intro tag w
  cases hd : decodeWith tag w with
  | fault t =>
    obtain ⟨rfl, hnone⟩ := decodeWith_fault hd
    exact ⟨Word.toNat_tag w, mnemonicOf_none hnone⟩
  | op i =>
    obtain ⟨m, hm, rfl⟩ := decodeWith_op hd
    refine ⟨by rw [assemble_mnemonic, mnemonicOf_some hm, Word.toNat_tag], ?_⟩
    cases m with
    | add | sub | mul | div => exact ⟨Word.toNat_idx_r1 w, Word.toNat_idx_r2 w, Word.toNat_idx_r3 w⟩
    | cmp => exact ⟨Word.toNat_idx_r1 w, Word.toNat_idx_r2 w⟩
    | push | pop => exact Word.toNat_idx_r1 w
    | imm => exact ⟨Word.toNat_idx_r1 w, Word.lit13_eq w⟩
    | jmp | je | jne | jg | jge | jl | jle | jz | jnz | call => exact Word.lit13_eq w
    | stackAdd | stackSub | stackMul | stackDiv | ret | fn | syscall => trivial

/-- Settles O5: one composition lemma per operand shape, each adding a field above those already placed. -/
theorem encodeComposesFields : Obligations.EncodeComposesFields := by
  intro tag i hwf
  cases i with
  | add | sub | mul | div => exact toNat_encRRR _ _ _ _
  | cmp => exact toNat_encRR _ _ _
  | push | pop => exact toNat_encR _ _
  | imm => exact toNat_encRL _ _ (Instr.literal_le hwf rfl)
  | jmp | je | jne | jg | jge | jl | jle | jz | jnz | call => exact toNat_encL _ (Instr.literal_le hwf rfl)
  | stackAdd | stackSub | stackMul | stackDiv | ret | fn | syscall => exact toNat_encN _

/-- Settles O6: the eight values in order, and the index of the register a value names. -/
theorem registerFieldsNameEveryRegister : Obligations.RegisterFieldsNameEveryRegister :=
  ⟨by decide, Reg.idx_ofIdx⟩

end Sys2Proof

/-!
PROOFS. The step cycle (40_step.md R91, R95, R101): what a step is when its fetch, its decode and the mode are known, and how
an executed instruction leaves mode and status. The three statements put these together.
-/

namespace Sys2Proof.Machine

/-! ### The step when fetch, decode and mode are known (40_step.md R91) -/

theorem State.advancePc_eq_writeReg (s : State) : s.advancePc = s.writeReg .pc (s.readReg .pc + 1) := by
  rw [State.advancePc, wrap32_toNat_succ]

theorem State.skip_eq_ite (i : Instr) (s : State) : s.skip i = if i = .ret then { s with mode := .running } else s := by
  split
  next hi => rw [hi, State.skip_ret]
  next hi => rw [State.skip_of_ne_ret hi]

theorem State.fetch_eq_none_iff (s : State) : s.fetch = none ↔ s.prog.length ≤ (s.readReg .pc).toNat :=
  List.getElem?_eq_none_iff

theorem stepWith_of_fetch_none {tag : TagMap} {s : State} (hl : s.status = .live) (hf : s.fetch = none) :
    stepWith tag s = .next (s.raise (.noNextInstruction (s.readReg .pc))) := by
  simp only [stepWith, cycle, hl, hf]

theorem stepWith_of_fetch_some {tag : TagMap} {s : State} {w : Word} (hl : s.status = .live) (hf : s.fetch = some w) :
    stepWith tag s = afterDecode exec (decodeWith tag w) s.advancePc := by
  simp only [stepWith, cycle, hl, hf]

theorem stepWith_of_decode_fault {tag : TagMap} {s : State} {w : Word} {x : BitVec 8} (hl : s.status = .live)
    (hf : s.fetch = some w) (hx : decodeWith tag w = .fault x) :
    stepWith tag s = .next (s.advancePc.raise (.unknownOpcode x)) := by
  rw [stepWith_of_fetch_some hl hf, hx, afterDecode]

theorem stepWith_of_skippingBody {tag : TagMap} {s : State} {i : Instr} (hl : s.status = .live)
    (hi : s.decodesTo tag i) (hm : s.mode = .skippingBody) : stepWith tag s = .next (s.advancePc.skip i) := by
  obtain ⟨w, hf, hd⟩ := hi
  simp only [stepWith_of_fetch_some hl hf, hd, afterDecode, State.advancePc_mode, hm]

theorem stepWith_of_running {tag : TagMap} {s : State} {i : Instr} (hl : s.status = .live)
    (hi : s.decodesTo tag i) (hm : s.mode = .running) : stepWith tag s = exec i s.advancePc := by
  obtain ⟨w, hf, hd⟩ := hi
  simp only [stepWith_of_fetch_some hl hf, hd, afterDecode, State.advancePc_mode, hm]

/-- An ended run takes no further step (40_step.md R100). -/
theorem stepWith_of_not_live {tag : TagMap} {s : State} (h : s.status ≠ .live) : stepWith tag s = .refused .notLive := by
  rcases stepWith_cases (tag := tag) (s := s) rfl with ⟨-, ho⟩ | ⟨hl, -⟩ | ⟨hl, -⟩
  · exact ho
  · exact absurd hl h
  · exact absurd hl h

/-! ### Mode and status after an executed instruction (40_step.md R101) -/

theorem exec_syscall_exit {s t : State} (h : exec .syscall s = .next t) (ha : (s.readReg .a).toNat = 0) :
    t = { s with status := .exited (s.readReg .b) } := by
  cases (execSyscall_exit ha).symm.trans h
  rfl

/-- Only Syscall 0 ends a run otherwise than by an error. -/
theorem exec_next_status {i : Instr} {s t : State} (h : exec i s = .next t)
    (hexit : ¬ (i = .syscall ∧ (s.readReg .a).toNat = 0)) : t.status = s.status ∨ ∃ e, t.status = .faulted e := by
  obtain ⟨-, -, hsame | herr | ⟨hi, ha, -⟩⟩ := exec_next h
  · exact .inl hsame
  · exact .inr herr
  · exact absurd ⟨hi, ha⟩ hexit

/-! ### The statements -/

/-- Settles O10: one equation of the step for each branch of the cycle. -/
theorem stepFollowsTheCycle : Obligations.StepFollowsTheCycle := by
  intro tag s hl
  refine ⟨fun hend => stepWith_of_fetch_none hl (s.fetch_eq_none_iff.mpr hend), fun w hw => ?_⟩
  simp only [← State.advancePc_eq_writeReg]
  refine ⟨fun x hx => stepWith_of_decode_fault hl hw hx, fun i hi hm => ?_,
    fun i hi hm => stepWith_of_running hl ⟨w, hw, hi⟩ hm⟩
  rw [stepWith_of_skippingBody hl ⟨w, hw, hi⟩ hm, State.skip_eq_ite]

/-- Settles O13: the skipped step is the PC advance and the skip filter, which moves at most the mode. -/
theorem skippedInstructionIsInert : Obligations.SkippedInstructionIsInert := by
  intro tag s w i hl hm hw hi
  refine ⟨_, stepWith_of_skippingBody hl ⟨w, hw, hi⟩ hm, ?_⟩
  rw [State.advancePc_eq_writeReg]
  exact ⟨by simp [hm], by simp, fun r hr => by simp [hr], by simp, by simp, by simp, by simp [hl]⟩

/-- Settles O15: the ways of a Live step, the executed instruction split into Fn, Syscall 0 and any other. -/
theorem engineStateTransitions : Obligations.EngineStateTransitions := by
  intro tag s t hl h
  constructor
  · rcases stepWith_cases h with ⟨hdead, -⟩ | ⟨-, hf, ho⟩ | ⟨-, w, hf, ⟨x, hx, ho⟩ | ⟨i, hi, hm, ho⟩ | ⟨i, hi, hm, hrun⟩⟩
    · exact absurd hl hdead
    · cases ho
      exact .inl ⟨hf, rfl, rfl⟩
    · cases ho
      exact .inr (.inl ⟨w, x, hf, hx, rfl, rfl⟩)
    · cases ho
      refine .inr (.inr ⟨i, ⟨w, hf, hi⟩, .inr (.inr (.inr ?_))⟩)
      by_cases hret : i = .ret
      · exact .inl ⟨hm, hret, by simp [hl], by simp [hret]⟩
      · exact .inr ⟨hm, hret, by simp [hl], by simp [hret, hm]⟩
    · refine .inr (.inr ⟨i, ⟨w, hf, hi⟩, ?_⟩)
      rcases eq_or_ne i .fn with rfl | hfn
      · cases hrun
        exact .inl ⟨hm, rfl, hl, rfl⟩
      by_cases hexit : i = .syscall ∧ (s.readReg .a).toNat = 0
      · obtain ⟨rfl, ha⟩ := hexit
        have ht := exec_syscall_exit hrun.symm ha
        exact .inr (.inl ⟨hm, rfl, ha, by simp [ht], by simp [ht, hm]⟩)
      · have hmode : t.mode = s.mode := (exec_next_mode hrun.symm).trans (if_neg hfn)
        have hstatus := exec_next_status hrun.symm hexit
        rw [State.advancePc_status, hl] at hstatus
        exact .inr (.inr (.inl ⟨hm, hfn, hexit, hmode.trans hm, hstatus⟩))
  · intro hend u hu
    cases (stepWith_of_not_live hend).symm.trans hu

end Sys2Proof.Machine

/-!
PROOFS. Syscall 0 and the selectors without a meaning (45_syscall.md R181, R186): which executed instruction can end a run
with an exit code, and that a step that answers started Live.
-/

namespace Sys2Proof.Machine

/-! ### The step that exits -/

theorem stepWith_next_live {tag : TagMap} {s t : State} (h : stepWith tag s = .next t) : s.status = .live := by
  by_contra hdead
  cases (stepWith_of_not_live hdead).symm.trans h

/-- Only Syscall 0 makes a Live machine exit, with B as the exit code (45_syscall.md R181). -/
theorem exec_next_exited {i : Instr} {s t : State} {c : Word} (h : exec i s = .next t) (hl : s.status = .live)
    (hc : t.status = .exited c) : i = .syscall ∧ (s.readReg .a).toNat = 0 ∧ c = s.readReg .b := by
  obtain ⟨-, -, hsame | ⟨e, herr⟩ | ⟨hi, ha, hexit⟩⟩ := exec_next h
  · cases hc.symm.trans (hsame.trans hl)
  · cases hc.symm.trans herr
  · exact ⟨hi, ha, Status.exited.inj (hc.symm.trans hexit)⟩

/-- Of the ways of a step, only an executed Syscall 0 leaves the machine exited. -/
theorem stepWith_next_exited {tag : TagMap} {s t : State} {c : Word} (h : stepWith tag s = .next t)
    (hc : t.status = .exited c) :
    s.mode = .running ∧ s.decodesTo tag .syscall ∧ (s.readReg .a).toNat = 0 ∧ c = s.readReg .b := by
  have hl := stepWith_next_live h
  rcases stepWith_next_cases h with ⟨-, e, rfl | rfl⟩ | ⟨i, -, -, rfl⟩ | ⟨i, hi, hm, hx⟩
  · cases hc
  · cases hc
  · rw [State.skip_status, State.advancePc_status, hl] at hc
    cases hc
  · obtain ⟨rfl, ha, hb⟩ := exec_next_exited hx hl hc
    exact ⟨hm, hi, by simpa using ha, by simpa using hb⟩

/-! ### The statements -/

/-- Settles O17: the arm of selector 0, the refusal of an ended run, and the one way of a step that exits. -/
theorem exitOnlyBySyscallZero : Obligations.ExitOnlyBySyscallZero := by
  refine ⟨fun _ => execSyscall_exit, fun tag s t c hc h => ?_, fun _ _ _ _ => stepWith_next_exited⟩
  cases hc.symm.trans (stepWith_next_live h)

/-- Settles O56: the arm of every selector above 2, and the class of its error (60_exceptions.md R210). -/
theorem otherSelectorsAreUnimplemented : Obligations.OtherSelectorsAreUnimplemented := by
  intro s h0 h1 h2
  exact ⟨execSyscall_other (by omega), rfl⟩

end Sys2Proof.Machine

/-!
PROOFS. The errors of fetch and decode (60_exceptions.md R201, R206): no executed instruction raises them, so a step that ends
in one failed at its fetch or its decode. What an operation shared by instructions can raise is said once, for any predicate
on errors.
-/

namespace Sys2Proof.Machine

/-! ### What a piece of pseudocode can raise -/

/-- If the pseudocode raises an error, the error satisfies `P`. -/
def Res.Raises {α : Type} (P : Error → Prop) : Res α → Prop
  | .raised e _ => P e
  | .ok _ _ => True
  | .hang => True

section
variable {P : Error → Prop}

theorem Res.Raises.bind {α β : Type} {r : Res α} {f : α → State → Res β} (h : r.Raises P)
    (hf : ∀ v t, (f v t).Raises P) : (r.bind f).Raises P := by
  cases r with
  | ok v t => exact hf v t
  | raised e t => exact h
  | hang => trivial

/-- Finished in a Live state, pseudocode that keeps the status ends in an error only by raising it. -/
theorem Res.Raises.of_finish {r : Res Unit} {s t : State} {e : Error} (hr : r.Raises P) (hk : r.All (Kept s))
    (hl : s.status = .live) (h : r.finish = .next t) (he : t.status = .faulted e) : P e := by
  rcases Res.finish_cases h with rfl | ⟨e', u, rfl, rfl⟩
  · cases he.symm.trans ((Kept.status hk).trans hl)
  · cases he
    exact hr

theorem stackPush_raises (hover : ∀ x, P (.stackOverflow x)) (v : Word) (s : State) : (stackPush v s).Raises P := by
  rcases stackPush_cases v s with ⟨-, h⟩ | ⟨-, m, -, h⟩ <;> rw [h]
  · exact hover _
  · trivial

theorem stackPop_raises (hunder : ∀ x, P (.stackUnderflow x)) (hread : ∀ a, P (.memoryRead a)) (s : State) :
    (stackPop s).Raises P := by
  rcases stackPop_cases s with ⟨-, h⟩ | ⟨-, -, h⟩ | ⟨-, v, -, h⟩ <;> rw [h]
  · exact hunder _
  · exact hread _
  · trivial

theorem popInto_raises (hunder : ∀ x, P (.stackUnderflow x)) (hread : ∀ a, P (.memoryRead a)) (r : Reg) (s : State) :
    ((stackPop s).bind fun v t => Res.ok () (t.writeReg r v)).Raises P :=
  (stackPop_raises hunder hread s).bind fun _ _ => trivial

theorem call_raises (hover : ∀ x, P (.stackOverflow x)) (x : Word) (k : Nat) (s : State) :
    ((stackPush x s).bind fun _ t => Res.ok () (t.writeReg .pc (wrap32 ((literal k).toNat + 1)))).Raises P :=
  (stackPush_raises hover x s).bind fun _ _ => trivial

theorem hostReadLine_raises (hio : P .hostIo) (s : State) : (hostReadLine s).Raises P := by
  unfold hostReadLine
  split
  · trivial
  · exact hio
  · trivial

theorem hostWrite_raises (hio : P .hostIo) (w : Word) (s : State) : (hostWrite w s).Raises P := by
  unfold hostWrite
  split
  · trivial
  · exact hio
  · trivial

theorem storeBytes_raises (hover : ∀ x, P (.stackOverflow x)) (bytes : List Byte) (s : State) :
    (storeBytes bytes s).Raises P := by
  induction bytes generalizing s with
  | nil => trivial
  | cons b rest ih => exact (stackPush_raises hover _ s).bind fun _ t => ih t

theorem readLine_raises (hover : ∀ x, P (.stackOverflow x)) (hio : P .hostIo) (c n : Word) (s : State) :
    (readLine c n s).Raises P :=
  (hostReadLine_raises hio s).bind fun _ _ => (storeBytes_raises hover _ _).bind fun _ _ => trivial

theorem writeWords_raises (hread : ∀ a, P (.memoryRead a)) (hio : P .hostIo) (a n : Nat) (s : State) :
    (writeWords a n s).Raises P := by
  induction n generalizing a s with
  | zero => trivial
  | succ n ih =>
    unfold writeWords
    split
    · exact hread a
    · exact (hostWrite_raises hio _ s).bind fun _ t => ih (a + 1) t

theorem stackBinary_raises (hover : ∀ x, P (.stackOverflow x)) (hunder : ∀ x, P (.stackUnderflow x))
    (hread : ∀ a, P (.memoryRead a)) (hzero : ∀ x, P (.divisionByZero x)) (op : Word → Word → Option Word)
    (s : State) : (stackBinary op s).Raises P :=
  (stackPop_raises hunder hread s).bind fun _ t =>
    (stackPop_raises hunder hread t).bind fun _ u => by
      split
      · exact hzero _
      · exact stackPush_raises hover _ u

end

/-! ### What an executed instruction can raise -/

/-- The kinds raised at neither fetch nor decode (60_exceptions.md R210). -/
def Error.OfExecution : Error → Prop
  | .noNextInstruction _ | .unknownOpcode _ => False
  | .stackOverflow _ | .stackUnderflow _ | .memoryWrite _ | .memoryRead _ | .hostIo | .divisionByZero _
  | .unimplementedSyscall _ => True

/-- No instruction raises NoNextInstruction or UnknownOpcode. -/
theorem exec_next_error {i : Instr} {s t : State} {e : Error} (hl : s.status = .live) (h : exec i s = .next t)
    (he : t.status = .faulted e) : e.OfExecution := by
  have unchanged : t.status = s.status → e.OfExecution := fun hs => by cases he.symm.trans (hs.trans hl)
  have hover (x : Word) : (Error.stackOverflow x).OfExecution := trivial
  have hunder (x : Word) : (Error.stackUnderflow x).OfExecution := trivial
  have hread (a : Nat) : (Error.memoryRead a).OfExecution := trivial
  cases i with
  | add | sub | mul | imm | cmp | fn => cases h; exact unchanged rfl
  | jmp | je | jne | jg | jge | jl | jle | jz | jnz => cases h; exact unchanged (jumpIf_kept _ _ s).status
  | div r1 r2 r3 =>
    simp only [exec, execDiv] at h
    split at h <;> cases h
    · cases he; trivial
    · exact unchanged rfl
  | push r1 => exact (stackPush_raises hover _ s).of_finish (stackPush_kept (Kept.rfl' s) _) hl h he
  | pop | ret => exact (popInto_raises hunder hread _ s).of_finish (popInto_kept _ s) hl h he
  | stackAdd | stackSub | stackMul | stackDiv =>
    exact (stackBinary_raises hover hunder hread (fun _ => trivial) _ s).of_finish (stackBinary_kept _ s) hl h he
  | call k => exact (call_raises hover _ k s).of_finish (call_kept _ k s) hl h he
  | syscall =>
    simp only [exec, execSyscall] at h
    split at h
    · cases h; cases he
    · exact (readLine_raises hover trivial _ _ s).of_finish (readLine_kept _ _ s) hl h he
    · exact (writeWords_raises hread trivial _ _ s).of_finish (writeWords_kept (Kept.rfl' s) _ _) hl h he
    · cases h; cases he; trivial

/-! ### Where the error of a step comes from -/

/-- A step ends in an error of its fetch, of its decode, or of the instruction it executed. -/
theorem stepWith_next_error {tag : TagMap} {s t : State} {e : Error} (h : stepWith tag s = .next t)
    (he : t.status = .faulted e) :
    (s.fetch = none ∧ e = .noNextInstruction (s.readReg .pc)) ∨
    (∃ w x, s.fetch = some w ∧ decodeWith tag w = .fault x ∧ e = .unknownOpcode x) ∨
    (s.mode = .running ∧ (∃ i, s.decodesTo tag i) ∧ e.OfExecution) := by
  rcases stepWith_cases h with ⟨-, ho⟩ | ⟨-, hf, ho⟩ |
    ⟨hl, w, hf, ⟨x, hx, ho⟩ | ⟨i, -, -, ho⟩ | ⟨i, hi, hm, ho⟩⟩
  · cases ho
  · cases ho; cases he
    exact .inl ⟨hf, rfl⟩
  · cases ho; cases he
    exact .inr (.inl ⟨w, x, hf, hx, rfl⟩)
  · cases ho
    rw [State.skip_status, State.advancePc_status, hl] at he
    cases he
  · exact .inr (.inr ⟨hm, ⟨i, w, hf, hi⟩, exec_next_error (s := s.advancePc) hl ho.symm he⟩)

theorem stepWith_next_noNextInstruction {tag : TagMap} {s t : State} {p : Word} (h : stepWith tag s = .next t)
    (he : t.status = .faulted (.noNextInstruction p)) : s.fetch = none := by
  rcases stepWith_next_error h he with ⟨hf, -⟩ | ⟨w, x, -, -, hx⟩ | ⟨-, -, hexec⟩
  · exact hf
  · cases hx
  · exact hexec.elim

theorem stepWith_next_unknownOpcode {tag : TagMap} {s t : State} {w : Word} {x : BitVec 8} (hf : s.fetch = some w)
    (h : stepWith tag s = .next t) (he : t.status = .faulted (.unknownOpcode x)) : decodeWith tag w = .fault x := by
  rcases stepWith_next_error h he with ⟨-, hx⟩ | ⟨v, y, hv, hd, hx⟩ | ⟨-, -, hexec⟩
  · cases hx
  · cases hx
    rwa [Option.some.inj (hf.symm.trans hv)]
  · exact hexec.elim

/-! ### The word without a tag (30_encoding.md R73) -/

theorem Word.tag_eq_ofNat (w : Word) : Word.tag w = BitVec.ofNat 8 (w.toNat % 256) := by
  rw [← Word.toNat_tag, BitVec.ofNat_toNat, BitVec.setWidth_eq]

theorem decodeWith_of_no_tag {tag : TagMap} {w : Word} (h : ∀ m, (tag m).toNat ≠ w.toNat % 256) :
    decodeWith tag w = .fault (Word.tag w) := by
  cases hd : decodeWith tag w with
  | fault x => rw [(decodeWith_fault hd).1]
  | op i =>
    obtain ⟨m, hm, -⟩ := decodeWith_op hd
    exact absurd (by rw [mnemonicOf_some hm, Word.toNat_tag]) (h m)

/-! ### The statements -/

/-- Settles O11: the step of an empty fetch, and no other way of a step that ends in this error. -/
theorem fetchPastTheEndEndsTheRun : Obligations.FetchPastTheEndEndsTheRun := by
  intro tag s hl
  exact ⟨fun hend => stepWith_of_fetch_none hl (s.fetch_eq_none_iff.mpr hend),
    fun t p h he => s.fetch_eq_none_iff.mp (stepWith_next_noNextInstruction h he), rfl⟩

/-- Settles O12: the step of a word that decode faults on, and no other way of a step that ends in this error. -/
theorem unknownOpcodeRaisedInEitherMode : Obligations.UnknownOpcodeRaisedInEitherMode := by
  intro tag s w hl hw
  refine ⟨fun hno => ?_, fun t x h he => ?_, fun x => rfl⟩
  · rw [stepWith_of_decode_fault hl hw (decodeWith_of_no_tag hno), State.advancePc_eq_writeReg, Word.tag_eq_ofNat]
    rfl
  · obtain ⟨rfl, hnone⟩ := decodeWith_fault (stepWith_next_unknownOpcode hw h he)
    exact ⟨Word.toNat_tag w, mnemonicOf_none hnone⟩

end Sys2Proof.Machine

/-!
PROOFS. The codec as a retraction (30_encoding.md R65, R71, R72): decode reads back every field encode sets, and encode gives a
decoded word back with its don't-care bits cleared. The round trip, its converse and the role of the don't-care bits follow.
-/

namespace Sys2Proof

/-! ### Decode reads back what encode sets -/

theorem Reg.eq_of_idx_toNat {r q : Reg} (h : r.idx.toNat = q.idx.toNat) : r = q := by
  rw [← Reg.ofIdx_idx r, BitVec.eq_of_toNat_eq h, Reg.ofIdx_idx]

@[simp] theorem r1_encR (t : BitVec 8) (ra : Reg) : Word.r1 (encR t ra) = ra :=
  Reg.eq_of_idx_toNat (by rw [Word.toNat_idx_r1, toNat_encR]; omega)

@[simp] theorem r1_encRR (t : BitVec 8) (ra rb : Reg) : Word.r1 (encRR t ra rb) = ra :=
  Reg.eq_of_idx_toNat (by rw [Word.toNat_idx_r1, toNat_encRR]; omega)

@[simp] theorem r2_encRR (t : BitVec 8) (ra rb : Reg) : Word.r2 (encRR t ra rb) = rb :=
  Reg.eq_of_idx_toNat (by rw [Word.toNat_idx_r2, toNat_encRR]; omega)

@[simp] theorem r1_encRRR (t : BitVec 8) (ra rb rc : Reg) : Word.r1 (encRRR t ra rb rc) = ra :=
  Reg.eq_of_idx_toNat (by rw [Word.toNat_idx_r1, toNat_encRRR]; omega)

@[simp] theorem r2_encRRR (t : BitVec 8) (ra rb rc : Reg) : Word.r2 (encRRR t ra rb rc) = rb :=
  Reg.eq_of_idx_toNat (by rw [Word.toNat_idx_r2, toNat_encRRR]; omega)

@[simp] theorem r3_encRRR (t : BitVec 8) (ra rb rc : Reg) : Word.r3 (encRRR t ra rb rc) = rc :=
  Reg.eq_of_idx_toNat (by rw [Word.toNat_idx_r3, toNat_encRRR]; omega)

theorem r1_encRL (t : BitVec 8) (ra : Reg) {k : Nat} (hk : k ≤ 8191) : Word.r1 (encRL t ra k) = ra :=
  Reg.eq_of_idx_toNat (by rw [Word.toNat_idx_r1, toNat_encRL t ra hk]; omega)

theorem lit13_encRL (t : BitVec 8) (ra : Reg) {k : Nat} (hk : k ≤ 8191) : Word.lit13 (encRL t ra k) = k := by
  rw [Word.lit13_eq, toNat_encRL t ra hk]; omega

theorem lit13_encL (t : BitVec 8) {k : Nat} (hk : k ≤ 8191) : Word.lit13 (encL t k) = k := by
  rw [Word.lit13_eq, toNat_encL t hk]; omega

/-- Encoding places the mnemonic's tag in the low byte, whatever the operands. -/
theorem tag_encodeWith (tag : TagMap) (i : Instr) : Word.tag (encodeWith tag i) = tag i.mnemonic := by
  cases i with
  | add | sub | mul | div => exact Laws.EncodedTag.tag_low_byte fun _ => Laws.EncodedTag.encRRR_low
  | imm => exact Laws.EncodedTag.tag_low_byte fun _ => Laws.EncodedTag.encRL_low
  | cmp => exact Laws.EncodedTag.tag_low_byte fun _ => Laws.EncodedTag.encRR_low
  | push | pop => exact Laws.EncodedTag.tag_low_byte fun _ => Laws.EncodedTag.encR_low
  | jmp | je | jne | jg | jge | jl | jle | jz | jnz | call =>
    exact Laws.EncodedTag.tag_low_byte fun _ => Laws.EncodedTag.encL_low
  | stackAdd | stackSub | stackMul | stackDiv | ret | fn | syscall =>
    exact Laws.EncodedTag.tag_low_byte fun _ => Laws.EncodedTag.encN_low

/-- The fields of an encoded instruction are its operands, under every tag map. -/
theorem assemble_encodeWith (tag : TagMap) {i : Instr} (h : i.wellFormed = true) :
    assemble i.mnemonic (encodeWith tag i) = i := by
  cases i with
  | add | sub | mul | div | cmp | push | pop => simp [Instr.mnemonic, assemble, encodeWith]
  | imm r1 k =>
    have hk := Instr.literal_le h rfl
    simp [Instr.mnemonic, assemble, encodeWith, r1_encRL _ _ hk, lit13_encRL _ _ hk]
  | jmp | je | jne | jg | jge | jl | jle | jz | jnz | call =>
    simp [Instr.mnemonic, assemble, encodeWith, lit13_encL _ (Instr.literal_le h rfl)]
  | stackAdd | stackSub | stackMul | stackDiv | ret | fn | syscall => rfl

theorem assemble_wellFormed (m : Mnemonic) (w : Word) : (assemble m w).wellFormed = true := by
  have hlit : Word.lit13 w ≤ maxLiteral := Nat.le_of_lt_succ (w.extractLsb' 11 13).isLt
  cases m with
  | imm | jmp | je | jne | jg | jge | jl | jle | jz | jnz | call => exact decide_eq_true hlit
  | add | sub | mul | div | push | pop | stackAdd | stackSub | stackMul | stackDiv | cmp | ret | fn | syscall => rfl

/-- Assembling, encoding and assembling again changes nothing. -/
theorem assemble_encodeWith_assemble (tag : TagMap) (m : Mnemonic) (w : Word) :
    assemble m (encodeWith tag (assemble m w)) = assemble m w := by
  have hback := assemble_encodeWith tag (assemble_wellFormed m w)
  rwa [assemble_mnemonic] at hback

theorem decodeWith_of_mnemonicOf {tag : TagMap} {w : Word} {m : Mnemonic} (h : mnemonicOf tag (Word.tag w) = some m) :
    decodeWith tag w = .op (assemble m w) := by
  simp only [decodeWith, h]

theorem decodeWith_encodeWith {tag : TagMap} {i : Instr} (htag : tag.Injective) (h : i.wellFormed = true) :
    decodeWith tag (encodeWith tag i) = .op i := by
  rw [decodeWith_of_mnemonicOf (by rw [tag_encodeWith, mnemonicOf_tag htag]), assemble_encodeWith tag h]

/-! ### Bits cleared by a mask -/

theorem and_not_and_self (w x : Word) : w &&& ~~~ x &&& x = 0 := by
  rw [BitVec.and_assoc, BitVec.and_comm (~~~ x), BitVec.and_not_self]
  exact BitVec.and_zero

theorem and_not_eq_self_iff (w x : Word) : w &&& ~~~ x = w ↔ w &&& x = 0 := by
  constructor
  · intro h
    rw [← h, and_not_and_self]
  · intro h
    calc w &&& ~~~ x = w &&& x ||| w &&& ~~~ x := by rw [h]; exact BitVec.zero_or.symm
      _ = w := by rw [← BitVec.and_or_distrib_left, BitVec.or_not_self, BitVec.and_allOnes]

theorem xor_and_eq_zero_iff (v w x : Word) : (v ^^^ w) &&& x = 0 ↔ v &&& x = w &&& x := by
  have hdistrib : (v ^^^ w) &&& x = v &&& x ^^^ w &&& x := by
    ext j
    simp [Bool.and_xor_distrib_right]
  rw [hdistrib]
  exact BitVec.xor_eq_zero_iff

/-! ### Encode clears the don't-care bits of a decoded word -/

/-- `n` ones from bit `p` up. -/
def fieldMask (p n : Nat) : Word := (BitVec.allOnes n).zeroExtend 32 <<< p

/-- A field cut out of a word and put back at its place. -/
theorem extractLsb'_shiftLeft (w : Word) (p n : Nat) :
    (w.extractLsb' p n).zeroExtend 32 <<< p = w &&& fieldMask p n := by
  apply BitVec.eq_of_getLsbD_eq
  intro j hj
  simp only [fieldMask, BitVec.zeroExtend, BitVec.getLsbD_and, BitVec.getLsbD_shiftLeft, BitVec.getLsbD_setWidth,
    BitVec.getLsbD_extractLsb', BitVec.getLsbD_allOnes]
  by_cases hp : p ≤ j
  · rw [Nat.add_sub_cancel' hp, Bool.and_comm (w.getLsbD j)]
    simp only [Bool.and_assoc]
  · simp [Nat.lt_of_not_le hp]

theorem encN_tag (w : Word) : encN (Word.tag w) = w &&& fieldMask 0 8 := by
  rw [← extractLsb'_shiftLeft, encN, Word.tag, BitVec.shiftLeft_zero]

theorem encR_fields (w : Word) : encR (Word.tag w) (Word.r1 w) = w &&& (fieldMask 0 8 ||| fieldMask 8 3) := by
  rw [encR, encN_tag, Word.r1, Reg.idx_ofIdx, extractLsb'_shiftLeft, BitVec.and_or_distrib_left]

theorem encRR_fields (w : Word) : encRR (Word.tag w) (Word.r1 w) (Word.r2 w) =
    w &&& (fieldMask 0 8 ||| fieldMask 8 3 ||| fieldMask 11 3) := by
  rw [encRR, encR_fields, Word.r2, Reg.idx_ofIdx, extractLsb'_shiftLeft, ← BitVec.and_or_distrib_left]

theorem encRRR_fields (w : Word) : encRRR (Word.tag w) (Word.r1 w) (Word.r2 w) (Word.r3 w) =
    w &&& (fieldMask 0 8 ||| fieldMask 8 3 ||| fieldMask 11 3 ||| fieldMask 14 3) := by
  rw [encRRR, encRR_fields, Word.r3, Reg.idx_ofIdx, extractLsb'_shiftLeft, ← BitVec.and_or_distrib_left]

theorem lit13_shiftLeft (w : Word) : BitVec.ofNat 32 (Word.lit13 w) <<< 11 = w &&& fieldMask 11 13 := by
  rw [Word.lit13, BitVec.ofNat_toNat]
  exact extractLsb'_shiftLeft w 11 13

theorem encRL_fields (w : Word) : encRL (Word.tag w) (Word.r1 w) (Word.lit13 w) =
    w &&& (fieldMask 0 8 ||| fieldMask 8 3 ||| fieldMask 11 13) := by
  rw [encRL, encR_fields, lit13_shiftLeft, ← BitVec.and_or_distrib_left]

theorem encL_fields (w : Word) : encL (Word.tag w) (Word.lit13 w) = w &&& (fieldMask 0 8 ||| fieldMask 11 13) := by
  rw [encL, encN_tag, lit13_shiftLeft, BitVec.and_or_distrib_left]

/-- Encoding the instruction a word holds gives the word with its don't-care bits cleared (30_encoding.md R65, R71): the fields
of each shape are the complement of its don't-care bits. -/
theorem encodeWith_assemble {tag : TagMap} {m : Mnemonic} {w : Word} (h : tag m = Word.tag w) :
    encodeWith tag (assemble m w) = w &&& ~~~ m.shape.dontCare := by
  cases m with
  | add | sub | mul | div => simp only [assemble, encodeWith, h, encRRR_fields]; rfl
  | imm => simp only [assemble, encodeWith, h, encRL_fields]; rfl
  | push | pop => simp only [assemble, encodeWith, h, encR_fields]; rfl
  | cmp => simp only [assemble, encodeWith, h, encRR_fields]; rfl
  | jmp | je | jne | jg | jge | jl | jle | jz | jnz | call => simp only [assemble, encodeWith, h, encL_fields]; rfl
  | stackAdd | stackSub | stackMul | stackDiv | ret | fn | syscall => simp only [assemble, encodeWith, h, encN_tag]; rfl

theorem encodeWith_of_decodeWith {tag : TagMap} {w : Word} {i : Instr} (h : decodeWith tag w = .op i) :
    encodeWith tag i = w &&& ~~~ i.mnemonic.shape.dontCare := by
  obtain ⟨m, hm, rfl⟩ := decodeWith_op h
  rw [encodeWith_assemble (mnemonicOf_some hm), assemble_mnemonic]

theorem encodeWith_and_dontCare (tag : TagMap) {i : Instr} (h : i.wellFormed = true) :
    encodeWith tag i &&& i.mnemonic.shape.dontCare = 0 := by
  have hclear := encodeWith_assemble (tag := tag) (tag_encodeWith tag i).symm
  rw [assemble_encodeWith tag h] at hclear
  rw [hclear, and_not_and_self]

/-! ### The don't-care bits do not reach decode -/

/-- Every shape cares for the tag. -/
theorem tag_and_not_dontCare (w : Word) (sh : Shape) : Word.tag (w &&& ~~~ sh.dontCare) = Word.tag w := by
  have htag : Word.tag (~~~ sh.dontCare) = BitVec.allOnes 8 := by cases sh <;> rfl
  rw [Word.tag, BitVec.extractLsb'_and]
  change Word.tag w &&& Word.tag (~~~ sh.dontCare) = Word.tag w
  rw [htag, BitVec.and_allOnes]

/-- Decode depends on the word without its don't-care bits: encode gives that word, and decode reads it back. -/
theorem decodeWith_of_and_dontCare_eq {tag : TagMap} {v w : Word} {i : Instr} (hv : decodeWith tag v = .op i)
    (h : v &&& ~~~ i.mnemonic.shape.dontCare = w &&& ~~~ i.mnemonic.shape.dontCare) : decodeWith tag w = .op i := by
  obtain ⟨m, hm, rfl⟩ := decodeWith_op hv
  rw [assemble_mnemonic] at h
  have htag : Word.tag v = Word.tag w := by
    rw [← tag_and_not_dontCare v, h, tag_and_not_dontCare]
  have hmv := mnemonicOf_some hm
  have henc : encodeWith tag (assemble m w) = encodeWith tag (assemble m v) := by
    rw [encodeWith_assemble hmv, encodeWith_assemble (hmv.trans htag), h]
  rw [decodeWith_of_mnemonicOf (htag ▸ hm), ← assemble_encodeWith_assemble tag m w, henc,
    assemble_encodeWith_assemble]

theorem Shape.dontCare_ne_zero (sh : Shape) : sh.dontCare ≠ 0 := by cases sh <;> decide

/-! ### The default tags (30_encoding.md R69) -/

theorem mnemonicOf_eq_none_iff {tag : TagMap} {t : BitVec 8} : mnemonicOf tag t = none ↔ ∀ m, tag m ≠ t := by
  refine ⟨mnemonicOf_none, fun h => ?_⟩
  cases hm : mnemonicOf tag t with
  | none => rfl
  | some m => exact absurd (mnemonicOf_some hm) (h m)

/-- The default tags are the values 0 to 0x18. -/
theorem mnemonicOf_opcodeTag_eq_none_iff (t : BitVec 8) : mnemonicOf Config.opcodeTag t = none ↔ 0x19 ≤ t.toNat := by
  rw [mnemonicOf_eq_none_iff]
  constructor
  · intro h
    by_contra hlt
    have hused : ∀ j : Fin 25, ∃ m ∈ Mnemonic.all, (Config.opcodeTag m).toNat = j := by decide
    obtain ⟨m, -, hm⟩ := hused ⟨t.toNat, by omega⟩
    exact h m (BitVec.eq_of_toNat_eq hm)
  · rintro h m rfl
    have hbound : (Config.opcodeTag m).toNat < 0x19 := by cases m <;> decide
    omega

theorem decode_fault_iff (w : Word) : (∃ t, decode w = .fault t) ↔ mnemonicOf Config.opcodeTag (Word.tag w) = none := by
  constructor
  · rintro ⟨t, ht⟩
    obtain ⟨-, hnone⟩ := decodeWith_fault ht
    exact hnone
  · intro hnone
    exact ⟨Word.tag w, by simp only [decode, decodeWith, hnone]⟩

theorem length_filter_le_range (k n : Nat) : ((List.range n).filter fun t => decide (k ≤ t)).length = n - k := by
  induction n with
  | zero => simp
  | succ n ih =>
    rw [List.range_succ, List.filter_append, List.length_append, ih]
    by_cases h : k ≤ n
    · simp [h]; omega
    · simp [h]; omega

/-! ### The statements -/

/-- Settles O1: the tag selects the mnemonic, and every field reads back the operand placed there. -/
theorem decodeOfEncodeIsIdentity : Obligations.DecodeOfEncodeIsIdentity :=
  fun _ _ => decodeWith_encodeWith

/-- Settles O3: decode factors through the word that encode gives, in which the don't-care bits are 0. -/
theorem decodeIgnoresDontCareBits : Obligations.DecodeIgnoresDontCareBits :=
  ⟨fun _ _ _ _ hv h => decodeWith_of_and_dontCare_eq hv ((xor_and_eq_zero_iff _ _ _).mp h),
    fun tag _ => encodeWith_and_dontCare tag⟩

/-- Settles O2: encode clears the don't-care bits, so it gives the word back where these are 0, and setting them makes a second
word for each instruction. -/
theorem encodeOfDecodeIffDontCareBitsZero : Obligations.EncodeOfDecodeIffDontCareBitsZero := by
  constructor
  · intro tag w i h
    rw [encodeWith_of_decodeWith h, and_not_eq_self_iff]
  · intro tag i htag hi
    have hdecode := decodeWith_encodeWith htag hi
    refine ⟨encodeWith tag i ^^^ i.mnemonic.shape.dontCare, encodeWith tag i, ?_, ?_, hdecode⟩
    · intro heq
      exact Shape.dontCare_ne_zero _ (by simpa using heq)
    · refine decodeWith_of_and_dontCare_eq hdecode ((xor_and_eq_zero_iff _ _ _).mp ?_)
      rw [← BitVec.xor_assoc, BitVec.xor_self, BitVec.zero_xor, BitVec.and_not_self]

/-- Settles O7: the tags 0 to 0x18 are taken, so the fault is the rest of the byte's values. -/
theorem illegalWordsUnderDefaultTags : Obligations.IllegalWordsUnderDefaultTags := by
  constructor
  · intro w
    rw [decode_fault_iff, mnemonicOf_opcodeTag_eq_none_iff, Word.toNat_tag]
  · have hnone (t : Nat) (ht : t ∈ List.range 256) :
        (mnemonicOf Config.opcodeTag (BitVec.ofNat 8 t)).isNone = decide (0x19 ≤ t) := by
      have hval : (BitVec.ofNat 8 t).toNat = t := Nat.mod_eq_of_lt (List.mem_range.mp ht)
      rw [Bool.eq_iff_iff, decide_eq_true_iff, Option.isNone_iff_eq_none, mnemonicOf_opcodeTag_eq_none_iff, hval]
    rw [List.filter_congr hnone, length_filter_le_range]

/-- Settles O8: the decoder evaluated on the eight words. -/
theorem specWordsDecode : Obligations.SpecWordsDecode := by
  refine ⟨?_, ?_, ?_, ?_, ?_, ?_, ?_, ?_⟩ <;> decide

end Sys2Proof

/-!
PROOFS. The invariant (00_scope.md R9; log entry 1), construction, and the driver's views: every way of a step stores into the
data memory only through its primitives, so the canonical form and both sizes stay.
-/

namespace Sys2Proof.Machine

/-! ### The invariant -/

theorem Stored.inv {s t : State} (h : Stored s t) (hs : s.Inv) : t.Inv := by
  obtain ⟨hwf, hcap, hprog⟩ := hs
  exact ⟨h.wf hwf, h.capacity ▸ hcap, h.prog ▸ hprog⟩

theorem State.inv_congr {s t : State} (hdata : t.data = s.data) (hprog : t.prog = s.prog) (hs : s.Inv) : t.Inv := by
  unfold State.Inv
  rw [hdata, hprog]
  exact hs

theorem stepWith_keeps_inv {tag : TagMap} {s t : State} (hs : s.Inv) (h : stepWith tag s = .next t) : t.Inv := by
  rcases stepWith_next_cases h with ⟨-, e, rfl | rfl⟩ | ⟨i, -, -, rfl⟩ | ⟨i, -, -, hx⟩
  · exact State.inv_congr rfl rfl hs
  · exact State.inv_congr rfl rfl hs
  · exact State.inv_congr (by simp) (by simp) hs
  · obtain ⟨hstored, -, -⟩ := exec_next hx
    exact hstored.inv (State.inv_congr rfl rfl hs)

theorem State.construct_inv {program words : List Word} (lines : List HostLine) (acks : List HostAck)
    (hp : program.length ≤ 2 ^ 32) (hw : words.length ≤ 2 ^ 32) :
    (State.construct program (Memory.ofWords words) lines acks).Inv :=
  ⟨Memory.ofWords_wf words, hw, hp⟩

/-! ### The data memory's primitives (20_memory.md R42) -/

theorem Memory.write_eq_none {m : Memory} {a : Nat} {v : Word} : m.write a v = none ↔ m.capacity ≤ a := by
  unfold Memory.write
  split <;> simp <;> omega

theorem Memory.lt_capacity_of_read {m : Memory} {a : Nat} {v : Word} (h : m.read a = some v) : a < m.capacity := by
  by_contra hge
  cases h.symm.trans (Memory.read_eq_none.mpr (Nat.le_of_not_lt hge))

/-! ### The driver's views (40_step.md R102; 20_memory.md R44) -/

theorem State.dump_stack_getElem? (s : State) {a : Nat} (h : a < (s.readReg .sp).toNat) :
    s.dump.stack[a]? = s.data.read a := by
  simp only [State.dump, List.getElem?_map, Memory.read]
  by_cases hc : a < s.data.capacity
  · rw [List.getElem?_range (by omega), if_pos hc]
    rfl
  · rw [List.getElem?_eq_none (by simp; omega), if_neg hc]
    rfl

theorem State.iReadRange_of_le {s : State} {start n : Nat} (h : start + n ≤ s.prog.length) :
    s.iReadRange start n = some ((s.prog.drop start).take n) := if_neg (Nat.not_lt.mpr h)

theorem State.iReadRange_of_lt {s : State} {start n : Nat} (h : s.prog.length < start + n) :
    s.iReadRange start n = none := if_pos h

/-! ### The statements -/

/-- Settles O19: each way of a step keeps the invariant, the default tags among the tag maps. -/
theorem stepKeepsInvariant : Obligations.StepKeepsInvariant :=
  ⟨fun _ _ => stepWith_keeps_inv, fun _ _ _ => stepWith_keeps_inv⟩

/-- Settles O20: a blank memory of the largest size, and the empty program. -/
theorem resetMeetsInvariant : Obligations.ResetMeetsInvariant :=
  ⟨Memory.blank_wf _, le_refl _, Nat.zero_le _⟩

/-- Settles O21: the fields of construction, and the memory that holds DATA_INIT word for word. -/
theorem constructionGivesInitialState : Obligations.ConstructionGivesInitialState := by
  intro program words lines acks
  exact ⟨State.construct_readReg _ _ _ _, rfl, rfl, rfl, rfl, Memory.read_ofWords words, State.construct_inv lines acks⟩

/-- Settles O9: the step when fetch, decode and mode are known. -/
theorem stepRunsDecodedInstruction : Obligations.StepRunsDecodedInstruction := by
  refine ⟨fun _ => rfl, fun tag s w i hl hm hw hi => ?_⟩
  rw [stepWith_of_running hl ⟨w, hw, hi⟩ hm, State.advancePc_eq_writeReg]

/-- Settles O14: of the ways of a step, all but the refusal start Live. -/
theorem endedRunTakesNoStep : Obligations.EndedRunTakesNoStep :=
  fun _ _ => stepWith_of_not_live

/-- Settles O57: the laws of the two primitives, the canonical form among them. -/
theorem dataMemoryReadsLastWrite : Obligations.DataMemoryReadsLastWrite := by
  intro m a v hm
  refine ⟨Memory.read_eq_none, Memory.write_eq_none, fun n hn => ?_⟩
  refine ⟨Memory.write_wf hm hn, Memory.write_capacity hn, ?_, fun b hb => ?_⟩
  · rw [Memory.read_write hm hn, if_pos rfl]
  · rw [Memory.read_write hm hn, if_neg hb]

/-- Settles O59: the dump's lists, and the two branches of the range read. -/
theorem dumpAndRangeRead : Obligations.DumpAndRangeRead := by
  refine ⟨fun s => ⟨rfl, by simp [State.dump], fun a => s.dump_stack_getElem?⟩, fun s start n => ?_⟩
  refine ⟨State.iReadRange_of_lt, fun h => ⟨_, State.iReadRange_of_le h, ?_, fun j hj => ?_⟩⟩
  · rw [List.length_take, List.length_drop]
    omega
  · rw [List.getElem?_take_of_lt hj, List.getElem?_drop]

/-- Settles O60: the two tables evaluated on each kind. -/
theorem errorCodesAndClasses : Obligations.ErrorCodesAndClasses :=
  fun _ _ _ => ⟨rfl, rfl⟩

end Sys2Proof.Machine

/-!
PROOFS. The stack (42_stack.md; 44_call_fn.md R170, R171): a push and a pop as one equation each, the stack arithmetic as two
pops and a push, and what is left unchanged. The LIFO law follows from these by induction on the registers pushed.
-/

namespace Sys2Proof.Machine

/-! ### Stack pointer arithmetic -/

theorem toNat_sub_one {x : Word} (h : 1 ≤ x.toNat) : (x - 1).toNat = x.toNat - 1 := by bv_omega

theorem toNat_sub_two {x : Word} (h : 2 ≤ x.toNat) : (x - 2).toNat = x.toNat - 2 := by bv_omega

@[simp] theorem State.writeReg_writeReg (s : State) (r : Reg) (v w : Word) :
    (s.writeReg r v).writeReg r w = s.writeReg r w := by
  cases r <;> rfl

@[simp] theorem State.writeReg_readReg (s : State) (r : Reg) : s.writeReg r (s.readReg r) = s := by
  cases r <;> rfl

/-! ### Frames -/

theorem Frame.refl (regs : List Reg) (words : List Nat) (s : State) : Frame regs words s s :=
  ⟨fun _ _ => rfl, fun _ _ => rfl, rfl, rfl, rfl, rfl, rfl⟩

theorem Frame.trans {regs : List Reg} {words : List Nat} {s t u : State} (h : Frame regs words s t)
    (g : Frame regs words t u) : Frame regs words s u where
  regs_kept r hr := (g.regs_kept r hr).trans (h.regs_kept r hr)
  words_kept a ha := (g.words_kept a ha).trans (h.words_kept a ha)
  capacity_kept := g.capacity_kept.trans h.capacity_kept
  mode_kept := g.mode_kept.trans h.mode_kept
  status_kept := g.status_kept.trans h.status_kept
  prog_kept := g.prog_kept.trans h.prog_kept
  host_kept := g.host_kept.trans h.host_kept

theorem Frame.mono {regs regs' : List Reg} {words words' : List Nat} {s t : State} (h : Frame regs words s t)
    (hr : regs ⊆ regs') (hw : words ⊆ words') : Frame regs' words' s t :=
  { h with
    regs_kept := fun r hn => h.regs_kept r fun hm => hn (hr hm)
    words_kept := fun a hn => h.words_kept a fun hm => hn (hw hm) }

theorem Frame.of_writeReg {regs : List Reg} {r : Reg} (hr : r ∈ regs) (words : List Nat) (s : State) (v : Word) :
    Frame regs words s (s.writeReg r v) :=
  { Frame.refl regs words s with
    regs_kept := fun q hq => by rw [State.readReg_writeReg, if_neg (ne_of_mem_of_not_mem hr hq).symm] }

theorem Frame.of_write (regs : List Reg) {s : State} {m : Memory} {a : Nat} {v : Word} (hwf : s.data.wf = true)
    (hm : s.data.write a v = some m) : Frame regs [a] s { s with data := m } :=
  { Frame.refl regs [a] s with
    words_kept := fun q hq => (Memory.read_write hwf hm q).trans (if_neg (by simpa using hq))
    capacity_kept := Memory.write_capacity hm }

/-! ### Push -/

/-- `t` is `s` after a push of `v` that found room. -/
structure Pushed (v : Word) (s t : State) : Prop where
  top : t.data.read (s.readReg .sp).toNat = some v
  sp : (t.readReg .sp).toNat = (s.readReg .sp).toNat + 1
  frame : Frame [.sp] [(s.readReg .sp).toNat] s t
  inv : t.Inv

theorem stackPush_pushed {s : State} (hs : s.Inv) (v : Word) (hroom : (s.readReg .sp).toNat + 1 < s.data.capacity) :
    ∃ t, stackPush v s = .ok () t ∧ Pushed v s t := by
  have hkept := stackPush_kept (Kept.rfl' s) v
  have ⟨hwf, hcap, _⟩ := hs
  obtain ⟨m, hm, hpush⟩ := stackPush_ok v hroom
  rw [hpush] at hkept
  refine ⟨_, hpush, ?_, ?_, ?_, hkept.stored.inv hs⟩
  · exact (Memory.read_write hwf hm _).trans (if_pos rfl)
  · rw [State.readReg_writeReg, if_pos rfl, toNat_pushed hroom hcap]
  · exact (Frame.of_write [.sp] hwf hm).trans (Frame.of_writeReg (by simp) _ _ _)

theorem exec_push_of_room {s : State} (hs : s.Inv) (r : Reg) (hroom : (s.readReg .sp).toNat + 1 < s.data.capacity) :
    ∃ t, exec (.push r) s = .next t ∧ Pushed (s.readReg r) s t := by
  obtain ⟨t, ht, hpushed⟩ := stackPush_pushed hs (s.readReg r) hroom
  exact ⟨t, by rw [exec, execPush, ht, Res.finish_ok], hpushed⟩

/-- Call is a push of PC and a jump behind its literal. -/
theorem exec_call_of_room {s : State} (hs : s.Inv) (k : Nat) (hroom : (s.readReg .sp).toNat + 1 < s.data.capacity) :
    ∃ t, exec (.call k) s = .next (t.writeReg .pc (wrap32 ((literal k).toNat + 1))) ∧ Pushed (s.readReg .pc) s t := by
  obtain ⟨t, ht, hpushed⟩ := stackPush_pushed hs (s.readReg .pc) hroom
  exact ⟨t, by rw [exec, execCall, ht, Res.bind_ok, Res.finish_ok], hpushed⟩

theorem exec_push_or_call_overflow {s : State} {i : Instr} (hi : (∃ r, i = .push r) ∨ ∃ k, i = .call k)
    (hfull : s.data.capacity ≤ (s.readReg .sp).toNat + 1) :
    exec i s = .next (s.raise (.stackOverflow (s.readReg .sp))) := by
  rcases hi with ⟨r, rfl⟩ | ⟨k, rfl⟩
  · rw [exec, execPush, stackPush_overflow hfull, Res.finish_raised]
  · rw [exec, execCall, stackPush_overflow hfull, Res.bind_raised, Res.finish_raised]

/-- A push or call that leaves the machine Live found room. -/
theorem room_of_exec_live {s t : State} {i : Instr} (hi : (∃ r, i = .push r) ∨ ∃ k, i = .call k)
    (h : exec i s = .next t) (hl : t.status = .live) : (s.readReg .sp).toNat + 1 < s.data.capacity := by
  by_contra hfull
  rw [exec_push_or_call_overflow hi (Nat.le_of_not_lt hfull)] at h
  cases h
  cases hl

/-! ### Pop -/

theorem stackPop_readable {s : State} {v : Word} (h : 1 ≤ (s.readReg .sp).toNat)
    (hv : s.data.read ((s.readReg .sp).toNat - 1) = some v) :
    stackPop s = .ok v (s.writeReg .sp (s.readReg .sp - 1)) := by
  rw [stackPop_ok h hv, wrap32_toNat_pred]

/-- A pop one above a known word gives that word and leads SP back to its address. -/
theorem stackPop_above {u : State} {x v : Word} (hsp : (u.readReg .sp).toNat = x.toNat + 1)
    (hv : u.data.read x.toNat = some v) : stackPop u = .ok v (u.writeReg .sp x) := by
  have hx : u.readReg .sp - 1 = x :=
    BitVec.eq_of_toNat_eq (by rw [toNat_sub_one (by omega), hsp, Nat.add_sub_cancel])
  rw [stackPop_readable (by omega) (by rwa [hsp, Nat.add_sub_cancel]), hx]

theorem exec_pop_of_ok {s t : State} {v : Word} (r : Reg) (h : stackPop s = .ok v t) :
    exec (.pop r) s = .next (t.writeReg r v) := by
  rw [exec, execPop, h, Res.bind_ok, Res.finish_ok]

theorem exec_ret_eq_pop (s : State) : exec .ret s = exec (.pop .pc) s := rfl

theorem exec_pop_readable {s : State} {v : Word} (r : Reg) (h : 1 ≤ (s.readReg .sp).toNat)
    (hv : s.data.read ((s.readReg .sp).toNat - 1) = some v) :
    ∃ t, exec (.pop r) s = .next t ∧ t.readReg r = v ∧
      (r ≠ .sp → (t.readReg .sp).toNat = (s.readReg .sp).toNat - 1) ∧ Frame [.sp, r] [] s t := by
  refine ⟨_, exec_pop_of_ok r (stackPop_readable h hv), by simp, fun hr => ?_, ?_⟩
  · rw [State.readReg_writeReg, if_neg hr.symm, State.readReg_writeReg, if_pos rfl, toNat_sub_one h]
  · exact (Frame.of_writeReg (by simp) _ _ _).trans (Frame.of_writeReg (by simp) _ _ _)

/-! ### Stack arithmetic -/

/-- The instructions that combine the two top words. -/
abbrev stackArithmetic : List Instr := [.stackAdd, .stackSub, .stackMul, .stackDiv]

theorem exec_stackArithmetic {i : Instr} (hi : i ∈ stackArithmetic) :
    ∃ op, ∀ s, exec i s = (stackBinary op s).finish := by
  simp only [List.mem_cons, List.not_mem_nil, or_false] at hi
  rcases hi with rfl | rfl | rfl | rfl <;> exact ⟨_, fun _ => rfl⟩

/-- Every instruction that pops begins with a pop. -/
theorem exec_begins_with_pop {i : Instr} (hi : (∃ r, i = .pop r) ∨ i ∈ Instr.ret :: stackArithmetic) :
    ∃ f, ∀ s, exec i s = ((stackPop s).bind f).finish := by
  rcases hi with ⟨r, rfl⟩ | hi
  · exact ⟨_, fun _ => rfl⟩
  rcases List.mem_cons.mp hi with rfl | hi
  · exact ⟨_, fun _ => rfl⟩
  · obtain ⟨op, hop⟩ := exec_stackArithmetic hi
    exact ⟨_, hop⟩

theorem stackBinary_one_word {s : State} (op : Word → Word → Option Word) (h : (s.readReg .sp).toNat = 1)
    (hcap : 1 ≤ s.data.capacity) : stackBinary op s = .raised (.stackUnderflow 0) (s.writeReg .sp 0) := by
  obtain ⟨a, ha⟩ := Memory.read_isSome (m := s.data) (a := 0) hcap
  rw [stackBinary, stackPop_above (x := 0) h ha, Res.bind_ok, stackPop_underflow (by simp)]
  simp

/-- Pop `a`, pop `b`, then push the result in the state whose SP is two lower, or raise there. -/
theorem stackBinary_two_words {s : State} {a b : Word} (op : Word → Word → Option Word)
    (h : 2 ≤ (s.readReg .sp).toNat) (ha : s.data.read ((s.readReg .sp).toNat - 1) = some a)
    (hb : s.data.read ((s.readReg .sp).toNat - 2) = some b) :
    stackBinary op s = match op b a with
      | none => .raised (.divisionByZero (s.readReg .pc - 1)) (s.writeReg .sp (s.readReg .sp - 2))
      | some v => stackPush v (s.writeReg .sp (s.readReg .sp - 2)) := by
  have hfirst := stackPop_readable (by omega) ha
  have hsecond := stackPop_above (u := s.writeReg .sp (s.readReg .sp - 1)) (x := s.readReg .sp - 2) (v := b)
    (by rw [State.readReg_writeReg, if_pos rfl, toNat_sub_one (by omega), toNat_sub_two h]; omega)
    (by rw [State.writeReg_data, toNat_sub_two h, hb])
  rw [stackBinary, hfirst, Res.bind_ok, hsecond, Res.bind_ok, State.writeReg_writeReg]
  cases op b a <;> simp [State.thisIndex, wrap32_toNat_pred]

/-- A readable top word has a readable word below it. -/
theorem Memory.read_below {m : Memory} {n : Nat} {a : Word} (h : m.read (n - 1) = some a) : ∃ b, m.read (n - 2) = some b :=
  Memory.read_isSome (by have := Memory.lt_capacity_of_read h; omega)

/-- The stack arithmetic fails at one of its pops, having moved SP only, or reaches its operation. -/
theorem stackBinary_cases (op : Word → Word → Option Word) (s : State) :
    (∃ e x, stackBinary op s = .raised e (s.writeReg .sp x) ∧ ((∃ y, e = .stackUnderflow y) ∨ ∃ n, e = .memoryRead n)) ∨
    (2 ≤ (s.readReg .sp).toNat ∧ ∃ a b, s.data.read ((s.readReg .sp).toNat - 1) = some a ∧
      s.data.read ((s.readReg .sp).toNat - 2) = some b) := by
  rcases stackPop_cases s with ⟨-, he⟩ | ⟨-, -, he⟩ | ⟨hpos, a, ha, -⟩
  · exact .inl ⟨_, s.readReg .sp, by rw [stackBinary, he, Res.bind_raised, State.writeReg_readReg], .inl ⟨_, rfl⟩⟩
  · exact .inl ⟨_, _, by rw [stackBinary, he, Res.bind_raised], .inr ⟨_, rfl⟩⟩
  · rcases Nat.eq_or_lt_of_le hpos with hone | htwo
    · have hcap := Memory.lt_capacity_of_read ha
      exact .inl ⟨_, _, stackBinary_one_word op hone.symm (by omega), .inl ⟨_, rfl⟩⟩
    · obtain ⟨b, hb⟩ := Memory.read_below ha
      exact .inr ⟨htwo, a, b, ha, hb⟩

theorem stackBinary_combines {s : State} {a b v : Word} {op : Word → Word → Option Word} (hs : s.Inv)
    (h : 2 ≤ (s.readReg .sp).toNat) (ha : s.data.read ((s.readReg .sp).toNat - 1) = some a)
    (hb : s.data.read ((s.readReg .sp).toNat - 2) = some b) (hv : op b a = some v) :
    ∃ t, (stackBinary op s).finish = .next t ∧ t.data.read ((s.readReg .sp).toNat - 2) = some v ∧
      (t.readReg .sp).toNat = (s.readReg .sp).toNat - 1 ∧ Frame [.sp] [(s.readReg .sp).toNat - 2] s t := by
  have hsp : ((s.writeReg .sp (s.readReg .sp - 2)).readReg .sp).toNat = (s.readReg .sp).toNat - 2 := by
    rw [State.readReg_writeReg, if_pos rfl, toNat_sub_two h]
  have hcap := Memory.lt_capacity_of_read ha
  obtain ⟨t, ht, hpushed⟩ := stackPush_pushed (s := s.writeReg .sp (s.readReg .sp - 2))
    (State.inv_congr rfl rfl hs) v (by rw [hsp, State.writeReg_data]; omega)
  obtain ⟨htop, htsp, hframe, -⟩ := hpushed
  rw [hsp] at htop htsp hframe
  refine ⟨t, ?_, htop, by omega, (Frame.of_writeReg (by simp) _ _ _).trans hframe⟩
  rw [stackBinary_two_words op h ha hb, hv]
  exact congrArg Res.finish ht

/-! ### The LIFO law (42_stack.md section 2) -/

theorem execAll_cons_of_live {i : Instr} {is : List Instr} {s t : State} (h : exec i s = .next t) (hl : t.status = .live) :
    execAll (i :: is) s = execAll is t := by
  simp only [execAll, h, if_pos hl]

/-- A list that leaves the machine Live ran its first instruction and then the rest. -/
theorem execAll_cons_live {i : Instr} {is : List Instr} {s t : State} (h : execAll (i :: is) s = .next t)
    (hl : t.status = .live) : ∃ u, exec i s = .next u ∧ u.status = .live ∧ execAll is u = .next t := by
  cases hu : exec i s with
  | next u =>
    by_cases hul : u.status = .live
    · exact ⟨u, rfl, hul, by rwa [execAll_cons_of_live hu hul] at h⟩
    · simp only [execAll, hu, if_neg hul] at h
      cases h
      exact absurd hl hul
  | fault f => simp only [execAll, hu] at h; cases h
  | refused r => simp only [execAll, hu] at h; cases h

theorem execAll_append_of_live {xs ys : List Instr} {s t : State} (h : execAll xs s = .next t) (hl : t.status = .live) :
    execAll (xs ++ ys) s = execAll ys t := by
  induction xs generalizing s with
  | nil => cases h; rfl
  | cons i is ih =>
    obtain ⟨u, hu, hul, hrest⟩ := execAll_cons_live h hl
    rw [List.cons_append, execAll_cons_of_live hu hul, ih hrest]

/-- A list of pushes that leaves the machine Live did its first push, and then the others from there. -/
theorem execAll_pushes_cons {r : Reg} {rs : List Reg} {s t : State} (hs : s.Inv)
    (h : execAll ((r :: rs).map .push) s = .next t) (hl : t.status = .live) :
    ∃ u, Pushed (s.readReg r) s u ∧ u.status = .live ∧ execAll (rs.map .push) u = .next t := by
  obtain ⟨u, hu, hul, hrest⟩ := execAll_cons_live h hl
  obtain ⟨u', hu', hpushed⟩ := exec_push_of_room hs r (room_of_exec_live (.inl ⟨r, rfl⟩) hu hul)
  cases hu.symm.trans hu'
  exact ⟨u, hpushed, hul, hrest⟩

/-- Pushes store at SP and above. -/
theorem execAll_pushes_below {rs : List Reg} {s t : State} {a : Nat} (hs : s.Inv)
    (h : execAll (rs.map .push) s = .next t) (hl : t.status = .live) (ha : a < (s.readReg .sp).toNat) :
    t.data.read a = s.data.read a := by
  induction rs generalizing s with
  | nil => cases h; rfl
  | cons r rs ih =>
    obtain ⟨u, hpushed, -, hrest⟩ := execAll_pushes_cons hs h hl
    have hkept := hpushed.frame.words_kept a (by simp; omega)
    rw [← hkept, ih hpushed.inv hrest (by have := hpushed.sp; omega)]

/-- Popping in reverse undoes pushing: the last register pushed is the first popped, and the pops after it meet the stack its
own push began on. -/
theorem execAll_pops_after_pushes {rs : List Reg} {s t u : State} (hs : s.Inv) (hrs : .sp ∉ rs)
    (h : execAll (rs.map .push) s = .next t) (hl : t.status = .live) (hu : u.status = .live) (hdata : u.data = t.data)
    (hsp : u.readReg .sp = t.readReg .sp) :
    ∃ v, execAll (rs.reverse.map .pop) u = .next v ∧ v.status = .live ∧ v.readReg .sp = s.readReg .sp ∧ v.data = u.data ∧
      (∀ r ∈ rs, v.readReg r = s.readReg r) ∧ ∀ r, r ∉ rs → r ≠ .sp → v.readReg r = u.readReg r := by
  induction rs generalizing s with
  | nil =>
    cases h
    exact ⟨u, rfl, hu, hsp, rfl, fun _ hr => absurd hr (by simp), fun _ _ _ => rfl⟩
  | cons r rs ih =>
    obtain ⟨hr, hrs⟩ := not_or.mp fun hm => hrs (List.mem_cons.mpr hm)
    obtain ⟨s₁, hpushed, -, hrest⟩ := execAll_pushes_cons hs h hl
    obtain ⟨v, hv, hvl, hvsp, hvdata, hrestored, hkept⟩ := ih hpushed.inv hrs hrest
    have htop : v.data.read (s.readReg .sp).toNat = some (s.readReg r) := by
      rw [hvdata, hdata, execAll_pushes_below hpushed.inv hrest hl (by have := hpushed.sp; omega), hpushed.top]
    have hpop := exec_pop_of_ok r (stackPop_above (by rw [hvsp, hpushed.sp]) htop)
    refine ⟨(v.writeReg .sp (s.readReg .sp)).writeReg r (s.readReg r), ?_, hvl, by simp [hr], hvdata, ?_, ?_⟩
    · rw [List.reverse_cons, List.map_append, execAll_append_of_live hv hvl]
      exact execAll_cons_of_live hpop hvl
    · intro q hq
      rcases eq_or_ne q r with rfl | hqr
      · simp
      · have hqrs : q ∈ rs := (List.mem_cons.mp hq).resolve_left hqr
        have hqsp : q ≠ .sp := fun hsp => hrs (hsp ▸ hqrs)
        rw [State.readReg_writeReg, if_neg hqr, State.readReg_writeReg, if_neg hqsp, hrestored q hqrs,
          hpushed.frame.regs_kept q (by simpa using hqsp)]
    · intro q hq hqsp
      obtain ⟨hqr, hqrs⟩ := not_or.mp fun hm => hq (List.mem_cons.mpr hm)
      rw [State.readReg_writeReg, if_neg hqr, State.readReg_writeReg, if_neg hqsp, hkept q hqrs hqsp]

/-! ### The statements -/

/-- Settles O34: the push with room, whose value is read before SP moves. -/
theorem pushStoresAtStackPointer : Obligations.PushStoresAtStackPointer := by
  intro s r1 hs hroom
  obtain ⟨t, ht, hpushed⟩ := exec_push_of_room hs r1 hroom
  exact ⟨t, ht, hpushed.top, hpushed.sp, hpushed.frame⟩

/-- Settles O35: both instructions begin with the push that overflows. -/
theorem pushAndCallOverflow : Obligations.PushAndCallOverflow :=
  fun _ _ => exec_push_or_call_overflow

/-- Settles O36: the pop of a readable word, and the destination written after SP. -/
theorem popLoadsTopWord : Obligations.PopLoadsTopWord :=
  fun _ r1 _ => exec_pop_readable r1

/-- Settles O37: all six instructions begin with the pop that underflows. -/
theorem popFromEmptyStackUnderflows : Obligations.PopFromEmptyStackUnderflows := by
  intro s i hi h
  obtain ⟨f, hf⟩ := exec_begins_with_pop hi
  rw [hf, stackPop_underflow h, show s.readReg .sp = 0 from BitVec.eq_of_toNat_eq h]
  rfl

/-- Settles O38: the first pop fails at its read, or the second finds the stack empty. -/
theorem failingPopsLeaveLoweredStackPointer : Obligations.FailingPopsLeaveLoweredStackPointer := by
  constructor
  · intro s i hi h hcap
    obtain ⟨f, hf⟩ := exec_begins_with_pop hi
    rw [hf, stackPop_unreadable h hcap, wrap32_toNat_pred]
    rfl
  · intro s i hi h hcap
    obtain ⟨op, hop⟩ := exec_stackArithmetic hi
    rw [hop, stackBinary_one_word op h hcap]
    rfl

/-- Settles O39: the stack arithmetic on two words, with the operation's value as a natural number. -/
theorem stackArithmeticCombinesTopWords : Obligations.StackArithmeticCombinesTopWords := by
  intro s a b hs h ha hb
  have combines {f : Word → Word → Word} {n : Nat} (hn : (f b a).toNat = n) :
      ∃ t v, (stackBinary (fun b a => some (f b a)) s).finish = .next t ∧
        t.data.read ((s.readReg .sp).toNat - 2) = some v ∧ v.toNat = n ∧
        (t.readReg .sp).toNat = (s.readReg .sp).toNat - 1 ∧ Frame [.sp] [(s.readReg .sp).toNat - 2] s t := by
    obtain ⟨t, ht, hword, hsp, hframe⟩ := stackBinary_combines (op := fun b a => some (f b a)) hs h ha hb rfl
    exact ⟨t, _, ht, hword, hn, hsp, hframe⟩
  simp only [List.forall_mem_cons]
  exact ⟨combines (aluAdd_toNat b a), combines (aluSub_toNat b a), combines (aluMul_toNat b a), by simp⟩

/-- Settles O40: the stack arithmetic with the quotient of a nonzero divisor. -/
theorem stackDivStoresQuotient : Obligations.StackDivStoresQuotient := by
  intro s a b hs h ha hb hne
  obtain ⟨q, hq, hval⟩ := aluDiv_toNat (a := b) hne
  obtain ⟨t, ht, hword, hsp, hframe⟩ := stackBinary_combines hs h ha hb hq
  exact ⟨t, q, ht, hword, hval, hsp, hframe⟩

/-- Settles O45: the push of PC with room, and PC behind the literal. -/
theorem callPushesReturnAndEnters : Obligations.CallPushesReturnAndEnters := by
  intro s k hs hk hroom
  have hle := Instr.literal_le hk rfl
  obtain ⟨t, ht, htop, hsp, hframe, -⟩ := exec_call_of_room hs k hroom
  refine ⟨_, ht, htop, by simpa using hsp, ?_, (hframe.mono (by simp) (by simp)).trans (Frame.of_writeReg (by simp) _ _ _)⟩
  rw [State.readReg_writeReg, if_pos rfl, toNat_literal (by omega), toNat_wrap32_succ, Nat.mod_eq_of_lt (by omega)]

/-- Settles O46: Ret is `Pop PC` by definition, so the pop's law is Ret's. -/
theorem retPopsIntoPc : Obligations.RetPopsIntoPc := by
  refine ⟨fun s v h hv => ?_, exec_ret_eq_pop⟩
  obtain ⟨t, ht, hpc, hsp, hframe⟩ := exec_pop_readable .pc h hv
  exact ⟨t, ht, hpc, hsp (by decide), hframe⟩

/-- Settles O50: Call's push left its return index below SP, and Ret pops one above it. -/
theorem retReturnsAfterCall : Obligations.RetReturnsAfterCall := by
  intro s t u k hs _ hcall hl hdata hsp
  obtain ⟨t', ht', hpushed⟩ := exec_call_of_room hs k (room_of_exec_live (.inr ⟨k, rfl⟩) hcall hl)
  cases hcall.symm.trans ht'
  have hpop := stackPop_above (u := u) (x := s.readReg .sp) (v := s.readReg .pc)
    (by rw [hsp]; exact hpushed.sp) (by rw [hdata]; exact hpushed.top)
  exact ⟨_, exec_pop_of_ok .pc hpop, by simp, by simp, rfl⟩

/-- Settles O49: the LIFO law, by induction on the registers pushed. -/
theorem pushesThenPopsRestore : Obligations.PushesThenPopsRestore := by
  intro rs s t u hs hrs _ h hl hu hdata hsp
  obtain ⟨v, hv, hvl, hvsp, -, hrestored, hkept⟩ := execAll_pops_after_pushes hs hrs h hl hu hdata hsp
  exact ⟨v, hv, hvl, hvsp, hrestored, hkept⟩

end Sys2Proof.Machine

/-!
PROOFS. Register arithmetic, compare and branch (41_arith_imm.md, 43_compare_branch.md): an instruction of these families writes
one register, so its frame is that of the write, and what is left to say is the value.
-/

namespace Sys2Proof.Machine

/-- The statement's form for an instruction that writes one register. -/
theorem next_writeReg {s : State} {i : Instr} {r : Reg} {v : Word} {n : Nat} (h : exec i s = .next (s.writeReg r v))
    (hv : v.toNat = n) : ∃ t, exec i s = .next t ∧ (t.readReg r).toNat = n ∧ Frame [r] [] s t :=
  ⟨_, h, by rw [State.readReg_writeReg, if_pos rfl, hv], Frame.of_writeReg (by simp) _ _ _⟩

/-! ### Division (41_arith_imm.md R114; 42_stack.md R138) -/

theorem exec_div_of_some {s : State} {r1 r2 : Reg} {q : Word} (r3 : Reg)
    (h : aluDiv (s.readReg r1) (s.readReg r2) = some q) : exec (.div r1 r2 r3) s = .next (s.writeReg r3 q) := by
  simp only [exec, execDiv, h]

theorem exec_div_by_zero {s : State} {r2 : Reg} (r1 r3 : Reg) (h : s.readReg r2 = 0) :
    exec (.div r1 r2 r3) s = .next (s.raise (.divisionByZero (s.readReg .pc - 1))) := by
  simp only [exec, execDiv, h, aluDiv_zero, State.thisIndex, wrap32_toNat_pred]

/-- Div raises with nothing written, or writes its destination. -/
theorem exec_div_cases (r1 r2 r3 : Reg) (s : State) :
    (s.readReg r2 = 0 ∧ exec (.div r1 r2 r3) s = .next (s.raise (.divisionByZero (s.readReg .pc - 1)))) ∨
    ∃ q, exec (.div r1 r2 r3) s = .next (s.writeReg r3 q) := by
  by_cases h : s.readReg r2 = 0
  · exact .inl ⟨h, exec_div_by_zero r1 r3 h⟩
  · obtain ⟨q, hq, -⟩ := aluDiv_toNat (a := s.readReg r1) h
    exact .inr ⟨q, exec_div_of_some r3 hq⟩

theorem exec_stackDiv_by_zero {s : State} (h : 2 ≤ (s.readReg .sp).toNat)
    (ha : s.data.read ((s.readReg .sp).toNat - 1) = some 0) :
    exec .stackDiv s =
      .next ((s.writeReg .sp (s.readReg .sp - 2)).raise (.divisionByZero (s.readReg .pc - 1))) := by
  obtain ⟨b, hb⟩ := Memory.read_below ha
  rw [exec, execStackDiv, stackBinary_two_words _ h ha hb, aluDiv_zero, Res.finish_raised]

/-! ### Compare (43_compare_branch.md R150) -/

/-- The bits of Flag that Cmp computes do not overlap, so their union is their sum. -/
theorem compareFlags_toNat (a b : Word) : (compareFlags a b).toNat =
    (if a.toNat = 0 then 1 else 0) + (if a.toNat < b.toNat then 2 else 0) + (if a.toNat > b.toNat then 4 else 0) +
      (if a.toNat = b.toNat then 8 else 0) + (if a.toNat ≠ b.toNat then 16 else 0) := by
  unfold compareFlags flagIf
  split_ifs <;> rfl

theorem compareFlags_of_lt {a b : Word} (h : a.toNat < b.toNat) :
    (compareFlags a b).toNat = (if a.toNat = 0 then 1 else 0) + 18 := by
  rw [compareFlags_toNat, if_pos h, if_neg h.not_gt, if_neg h.ne, if_pos h.ne]

theorem compareFlags_of_eq {a b : Word} (h : a.toNat = b.toNat) :
    (compareFlags a b).toNat = (if a.toNat = 0 then 1 else 0) + 8 := by
  rw [compareFlags_toNat, if_neg h.not_lt, if_neg h.not_gt, if_pos h, if_neg (not_not.mpr h)]

theorem compareFlags_of_gt {a b : Word} (h : b.toNat < a.toNat) : (compareFlags a b).toNat = 20 := by
  rw [compareFlags_toNat, if_neg (Nat.ne_zero_of_lt h), if_neg h.not_gt, if_pos h, if_neg h.ne', if_pos h.ne']

theorem compareFlags_mem (a b : Word) : (compareFlags a b).toNat ∈ [8, 9, 18, 19, 20] := by
  rcases Nat.lt_trichotomy a.toNat b.toNat with h | h | h
  · rw [compareFlags_of_lt h]
    split <;> decide
  · rw [compareFlags_of_eq h]
    split <;> decide
  · rw [compareFlags_of_gt h]
    decide

/-- Of two words exactly one of less, greater and equal holds. -/
theorem compareFlags_one_order (a b : Word) : ((compareFlags a b).getLsbD 1).toNat + ((compareFlags a b).getLsbD 2).toNat +
    ((compareFlags a b).getLsbD 3).toNat = 1 := by
  rw [compareFlags_bit1, compareFlags_bit2, compareFlags_bit3]
  rcases Nat.lt_trichotomy a.toNat b.toNat with h | h | h
  · simp [h, h.ne, h.not_gt]
  · simp [h]
  · simp [h, h.ne', h.not_gt]

/-- The flags that both Jge and Jle ask for, an order bit and EQ, are never set together. -/
theorem compareFlags_order_and_eq (a b : Word) :
    ((compareFlags a b).getLsbD 1 && (compareFlags a b).getLsbD 3) = false ∧
      ((compareFlags a b).getLsbD 2 && (compareFlags a b).getLsbD 3) = false := by
  rw [compareFlags_bit1, compareFlags_bit2, compareFlags_bit3]
  constructor
  · rw [Bool.and_eq_false_imp, decide_eq_true_eq]
    exact fun h => decide_eq_false h.ne
  · rw [Bool.and_eq_false_imp, decide_eq_true_eq]
    exact fun h => decide_eq_false h.ne'

theorem exec_cmp_flag {s t : State} {r1 r2 : Reg} (h : exec (.cmp r1 r2) s = .next t) :
    t.readReg .flag = compareFlags (s.readReg r1) (s.readReg r2) := by
  cases h
  exact (State.readReg_writeReg _ _ _ _).trans (if_pos rfl)

/-! ### Jumps (43_compare_branch.md R152 to R162) -/

theorem jumpIf_pc (c : Bool) {k : Nat} (s : State) (hk : k ≤ 8191) :
    ((jumpIf c k s).readReg .pc).toNat = if c then k else (s.readReg .pc).toNat := by
  cases c with
  | true => simp [jumpIf, toNat_literal (show k < 2 ^ 32 by omega)]
  | false => rfl

theorem jumpIf_frame (c : Bool) (k : Nat) (s : State) : Frame [.pc] [] s (jumpIf c k s) := by
  cases c with
  | true => exact Frame.of_writeReg (by simp) _ _ _
  | false => exact Frame.refl _ _ s

/-- Each conditional jump with the bits of Flag it tests. -/
theorem exec_conditional_jumps (k : Nat) (s : State) :
    exec (.je k) s = .next (jumpIf ((s.readReg .flag).getLsbD 3) k s) ∧
    exec (.jne k) s = .next (jumpIf ((s.readReg .flag).getLsbD 4) k s) ∧
    exec (.jg k) s = .next (jumpIf ((s.readReg .flag).getLsbD 2) k s) ∧
    exec (.jge k) s = .next (jumpIf ((s.readReg .flag).getLsbD 2 && (s.readReg .flag).getLsbD 3) k s) ∧
    exec (.jl k) s = .next (jumpIf ((s.readReg .flag).getLsbD 1) k s) ∧
    exec (.jle k) s = .next (jumpIf ((s.readReg .flag).getLsbD 1 && (s.readReg .flag).getLsbD 3) k s) ∧
    exec (.jz k) s = .next (jumpIf ((s.readReg .flag).getLsbD 0) k s) ∧
    exec (.jnz k) s = .next (jumpIf (!(s.readReg .flag).getLsbD 0) k s) :=
  ⟨rfl, rfl, rfl, rfl, rfl, rfl, rfl, rfl⟩

/-! ### The statements -/

/-- Settles O28. The destination may be a source: both are read before it is written. -/
theorem addStoresSum : Obligations.AddStoresSum :=
  fun _ _ _ _ => next_writeReg rfl (aluAdd_toNat _ _)

/-- Settles O29. -/
theorem subStoresDifference : Obligations.SubStoresDifference :=
  fun _ _ _ _ => next_writeReg rfl (aluSub_toNat _ _)

/-- Settles O30. -/
theorem mulStoresLowProduct : Obligations.MulStoresLowProduct :=
  fun _ _ _ _ => next_writeReg rfl (aluMul_toNat _ _)

/-- Settles O31: the quotient exists for a nonzero divisor. -/
theorem divStoresQuotient : Obligations.DivStoresQuotient := by
  intro s r1 r2 r3 h
  obtain ⟨q, hq, hval⟩ := aluDiv_toNat (a := s.readReg r1) h
  exact next_writeReg (exec_div_of_some r3 hq) hval

/-- Settles O32: a quotient that does not exist, before the destination is written or after both pops. -/
theorem divisionByZeroIsRaised : Obligations.DivisionByZeroIsRaised :=
  ⟨fun _ r1 _ r3 => exec_div_by_zero r1 r3, fun _ => exec_stackDiv_by_zero⟩

/-- Settles O33: a Bit13Literal is below 2^32, so zero-extension gives it whole. -/
theorem immLoadsLiteral : Obligations.ImmLoadsLiteral := by
  intro s r1 k hk
  have hle := Instr.literal_le hk rfl
  exact next_writeReg rfl (toNat_literal (by omega))

/-- Settles O41: Flag is written whole, from the five comparisons. -/
theorem cmpComputesFlags : Obligations.CmpComputesFlags := by
  intro s r1 r2
  obtain ⟨t, ht, hflag, hframe⟩ := next_writeReg (i := .cmp r1 r2) (s := s) rfl (compareFlags_toNat _ _)
  exact ⟨t, ht, hframe, hflag⟩

/-- Settles O42: the three orders exclude each other, and the five values are those of the orders with or without ZF. -/
theorem cmpFlagInvariants : Obligations.CmpFlagInvariants := by
  intro s t r1 r2 h
  simp only [exec_cmp_flag h]
  refine ⟨compareFlags_one_order _ _, ?_, compareFlags_mem _ _⟩
  rw [compareFlags_bit4, compareFlags_bit3, decide_not]

/-- Settles O43: each jump is jumpIf at its condition. -/
theorem jumpsTestTheirFlagBits : Obligations.JumpsTestTheirFlagBits := by
  intro s k hk
  have jumps {i : Instr} {c : Bool} (h : exec i s = .next (jumpIf c k s)) : ∃ t, exec i s = .next t ∧
      (t.readReg .pc).toNat = (if c then k else (s.readReg .pc).toNat) ∧ Frame [.pc] [] s t :=
    ⟨_, h, jumpIf_pc c s hk, jumpIf_frame c k s⟩
  have hjmp := jumps (i := .jmp k) (c := true) rfl
  obtain ⟨hje, hjne, hjg, hjge, hjl, hjle, hjz, hjnz⟩ := exec_conditional_jumps k s
  simp only [List.forall_mem_cons]
  exact ⟨by simpa using hjmp, jumps hje, jumps hjne, jumps hjg, jumps hjge, jumps hjl, jumps hjle, jumps hjz,
    jumps hjnz, by simp⟩

/-- Settles O44: the bits a jump tests are the comparisons Cmp left in them. -/
theorem branchOutcomesAfterCmp : Obligations.BranchOutcomesAfterCmp := by
  intro s t u r1 r2 k hcmp hflag hk
  have jumps {i : Instr} {c d : Bool} (h : exec i u = .next (jumpIf c k u)) (hcd : c = d) : ∃ v, exec i u = .next v ∧
      (v.readReg .pc).toNat = if d then k else (u.readReg .pc).toNat :=
    ⟨_, h, hcd ▸ jumpIf_pc c u hk⟩
  obtain ⟨hje, hjne, hjg, hjge, hjl, hjle, hjz, hjnz⟩ := exec_conditional_jumps k u
  rw [hflag, exec_cmp_flag hcmp] at hje hjne hjg hjge hjl hjle hjz hjnz
  obtain ⟨hle, hge⟩ := compareFlags_order_and_eq (s.readReg r1) (s.readReg r2)
  simp only [List.forall_mem_cons]
  exact ⟨jumps hje (compareFlags_bit3 _ _), jumps hjne (compareFlags_bit4 _ _), jumps hjg (compareFlags_bit2 _ _),
    jumps hjge hge, jumps hjl (compareFlags_bit1 _ _), jumps hjle hle, jumps hjz (compareFlags_bit0 _ _),
    jumps hjnz (by rw [compareFlags_bit0, decide_not]), by simp⟩

end Sys2Proof.Machine

/-!
PROOFS. Syscall 1 and 2 (45_syscall.md R184, R185, R187, R188): the bytes of a line fill the words from SP up by pushes, and the
words of a buffer go to the host one by one, up to the first that fails.
-/

namespace Sys2Proof.Machine

/-! ### Storing the bytes of a line (45_syscall.md R184) -/

/-- `t` is `s` with the words from SP up filled with `bytes`, and SP past the last of them. -/
structure Filled (bytes : List Byte) (s t : State) : Prop where
  words : ∀ i, i < bytes.length → t.data.read ((s.readReg .sp).toNat + i) = bytes[i]?.map byteWord
  sp : (t.readReg .sp).toNat = (s.readReg .sp).toNat + bytes.length
  frame : Frame [.sp] (List.range' (s.readReg .sp).toNat bytes.length) s t

theorem Filled.nil (s : State) : Filled [] s s := ⟨fun _ h => absurd h (by simp), rfl, Frame.refl _ _ s⟩

theorem Filled.cons {b : Byte} {rest : List Byte} {s t u : State} (h : Pushed (byteWord b) s t) (g : Filled rest t u) :
    Filled (b :: rest) s u := by
  obtain ⟨htop, hsp, hframe, -⟩ := h
  obtain ⟨gwords, gsp, gframe⟩ := g
  rw [hsp] at gwords gsp gframe
  refine ⟨fun i hi => ?_, by rw [gsp, List.length_cons]; omega, ?_⟩
  · cases i with
    | zero =>
      rw [Nat.add_zero, gframe.words_kept _ (by simp [List.mem_range'_1]), htop]
      rfl
    | succ i =>
      rw [List.getElem?_cons_succ, ← gwords i (by simpa using hi)]
      congr 1
      omega
  · rw [List.length_cons, List.range'_succ]
    exact (hframe.mono (by simp) (by simp)).trans (gframe.mono (by simp) (by simp))

theorem storeBytes_append (xs ys : List Byte) (s : State) :
    storeBytes (xs ++ ys) s = (storeBytes xs s).bind fun _ t => storeBytes ys t := by
  induction xs generalizing s with
  | nil => rfl
  | cons b xs ih =>
    rw [List.cons_append, storeBytes, storeBytes]
    cases stackPush (byteWord b) s with
    | ok v t => exact ih t
    | raised e t => rfl
    | hang => rfl

theorem storeBytes_filled {bytes : List Byte} {s : State} (hs : s.Inv)
    (hroom : bytes.length = 0 ∨ (s.readReg .sp).toNat + bytes.length < s.data.capacity) :
    ∃ t, storeBytes bytes s = .ok () t ∧ Filled bytes s t := by
  induction bytes generalizing s with
  | nil => exact ⟨s, rfl, Filled.nil s⟩
  | cons b rest ih =>
    rw [List.length_cons] at hroom
    obtain ⟨t, ht, hpushed⟩ := stackPush_pushed hs (byteWord b) (by omega)
    have hcap := hpushed.frame.capacity_kept
    have hsp := hpushed.sp
    obtain ⟨u, hu, hfilled⟩ := ih hpushed.inv (by omega)
    exact ⟨u, by rw [storeBytes, ht, Res.bind_ok, hu], hfilled.cons hpushed⟩

/-- The first byte without room ends the loop, with SP where the byte would have gone. -/
theorem storeBytes_overflow {bytes : List Byte} {s : State} {i : Nat} (hs : s.Inv) (hi : i < bytes.length)
    (hroom : i = 0 ∨ (s.readReg .sp).toNat + i < s.data.capacity) (hfull : s.data.capacity ≤ (s.readReg .sp).toNat + i + 1) :
    ∃ t, storeBytes bytes s = .raised (.stackOverflow (t.readReg .sp)) t ∧ Filled (bytes.take i) s t := by
  have hlen : (bytes.take i).length = i := List.length_take_of_le hi.le
  obtain ⟨t, ht, hfilled⟩ := storeBytes_filled (bytes := bytes.take i) hs (by rwa [hlen])
  have hcap := hfilled.frame.capacity_kept
  have hsp := hfilled.sp
  have hover : stackPush (byteWord bytes[i]) t = .raised (.stackOverflow (t.readReg .sp)) t :=
    stackPush_overflow (by omega)
  have hsplit : bytes = bytes.take i ++ bytes[i] :: bytes.drop (i + 1) := by
    rw [← List.drop_eq_getElem_cons hi, List.take_append_drop]
  refine ⟨t, ?_, hfilled⟩
  rw [hsplit, storeBytes_append, ht, Res.bind_ok, storeBytes, hover, Res.bind_raised]

/-! ### Reading a line -/

/-- The state in which Syscall 1 stores its line: the request made, and SP at the buffer. -/
def State.atBuffer (s : State) : State :=
  ({ s with host := { s.host with lineReqs := s.host.lineReqs + 1 } } : State).writeReg .sp (s.readReg .c)

theorem State.atBuffer_readReg (s : State) (r : Reg) :
    s.atBuffer.readReg r = if r = .sp then s.readReg .c else s.readReg r := State.readReg_writeReg _ _ _ _

theorem State.atBuffer_sp (s : State) : s.atBuffer.readReg .sp = s.readReg .c := by rw [s.atBuffer_readReg, if_pos rfl]

theorem State.atBuffer_inv {s : State} (hs : s.Inv) : s.atBuffer.Inv := State.inv_congr rfl rfl hs

theorem exec_syscall_line {s : State} {bytes : List Byte} (ha : (s.readReg .a).toNat = 1) (hline : s.nextLine = .line bytes) :
    exec .syscall s = ((storeBytes (bytes.take (s.readReg .d).toNat) s.atBuffer).bind fun _ u =>
      .ok () (u.writeReg .sp (s.readReg .sp))).finish := by
  rw [exec, execSyscall_read ha, readLine, hostReadLine, hline]
  rfl

theorem exec_syscall_line_fails {s : State} (ha : (s.readReg .a).toNat = 1) (hline : s.nextLine = .fail) :
    exec .syscall s = .next { s with
      status := .faulted .hostIo, host := { s.host with lineReqs := s.host.lineReqs + 1 } } := by
  rw [exec, execSyscall_read ha, readLine, hostReadLine, hline]
  rfl

theorem exec_syscall_line_silent {s : State} (ha : (s.readReg .a).toNat = 1) (hline : s.nextLine = .silent) :
    exec .syscall s = .fault .hostSilent := by
  rw [exec, execSyscall_read ha, readLine, hostReadLine, hline]
  rfl

/-- The words of a filled buffer, as the values of the line's bytes. -/
theorem Filled.read_toNat {bytes : List Byte} {n i : Nat} {s t : State} (h : Filled (bytes.take n) s t)
    (hi : i < min bytes.length n) :
    (t.data.read ((s.readReg .sp).toNat + i)).map BitVec.toNat = bytes[i]?.map BitVec.toNat := by
  rw [h.words i (by rw [List.length_take]; omega), List.getElem?_take_of_lt (by omega), Option.map_map]
  exact Option.map_congr fun b _ => toNat_byteWord b

theorem Filled.read_outside {bytes : List Byte} {s t : State} {a : Nat} (h : Filled bytes s t)
    (ha : a < (s.readReg .sp).toNat ∨ (s.readReg .sp).toNat + bytes.length ≤ a) : t.data.read a = s.data.read a :=
  h.frame.words_kept a (by rw [List.mem_range'_1]; omega)

/-! ### Sending words (45_syscall.md R185) -/

/-- The state after all of `words` were sent and accepted. -/
def State.sentAll (s : State) (words : List Word) : State :=
  { s with host := { s.host with
    writeReqs := s.host.writeReqs + words.length
    sent := s.host.sent ++ words.map fun w => ⟨w, true⟩ } }

theorem State.sentAll_nil (s : State) : s.sentAll [] = s := by
  simp [State.sentAll]

theorem State.sentAll_cons (s : State) (w : Word) (words : List Word) :
    s.sentAll (w :: words) = (s.recordSent w true).sentAll words := by
  simp [State.sentAll, State.recordSent, Nat.add_assoc, Nat.add_comm 1]

theorem writeWords_unreadable {s : State} {a : Nat} (n : Nat) (hr : s.data.capacity ≤ a) :
    writeWords a (n + 1) s = .raised (.memoryRead a) s := by
  simp only [writeWords, Memory.read_eq_none.mpr hr]

theorem writeWords_ok {s : State} {a : Nat} {w : Word} (n : Nat) (hr : s.data.read a = some w) (hack : s.nextAck = .ok) :
    writeWords a (n + 1) s = writeWords (a + 1) n (s.recordSent w true) := by
  simp only [writeWords, hr, hostWrite, hack, Res.bind_ok]

theorem writeWords_fail {s : State} {a : Nat} {w : Word} (n : Nat) (hr : s.data.read a = some w) (hack : s.nextAck = .fail) :
    writeWords a (n + 1) s = .raised .hostIo (s.recordSent w false) := by
  simp only [writeWords, hr, hostWrite, hack, Res.bind_raised]

theorem writeWords_silent {s : State} {a : Nat} {w : Word} (n : Nat) (hr : s.data.read a = some w)
    (hack : s.nextAck = .silent) : writeWords a (n + 1) s = .hang := by
  simp only [writeWords, hr, hostWrite, hack, Res.bind_hang]

/-- The words before the first failure are sent, and the loop goes on behind them. -/
theorem writeWords_accepted {words : List Word} {s : State} {a : Nat} (n : Nat)
    (hread : ∀ j, j < words.length → s.data.read (a + j) = words[j]?)
    (hack : ∀ j, j < words.length → s.host.ackAnswer (s.host.writeReqs + j) = .ok) :
    writeWords a (words.length + n) s = writeWords (a + words.length) n (s.sentAll words) := by
  induction words generalizing s a with
  | nil => rw [State.sentAll_nil, List.length_nil, Nat.zero_add, Nat.add_zero]
  | cons w words ih =>
    have hrest : writeWords (a + 1) (words.length + n) (s.recordSent w true) =
        writeWords (a + 1 + words.length) n ((s.recordSent w true).sentAll words) := by
      refine ih (fun j hj => ?_) fun j hj => ?_
      · rw [State.recordSent_data, Nat.add_right_comm a 1 j]
        exact hread (j + 1) (Nat.succ_lt_succ hj)
      · rw [State.recordSent_ackAnswer, State.recordSent_writeReqs, Nat.add_right_comm _ 1 j]
        exact hack (j + 1) (Nat.succ_lt_succ hj)
    have hfirst : s.data.read a = some w := hread 0 (Nat.succ_pos _)
    rw [List.length_cons, Nat.add_right_comm words.length 1 n, writeWords_ok _ hfirst (hack 0 (Nat.succ_pos _)), hrest,
      State.sentAll_cons, Nat.add_assoc a 1, Nat.add_comm 1]

/-- Syscall 2 whose first words are readable and accepted has sent them and goes on with the others. -/
theorem exec_syscall_write {s : State} {words : List Word} (ha : (s.readReg .a).toNat = 2)
    (hlen : words.length ≤ (s.readReg .d).toNat)
    (hread : ∀ j, j < words.length → s.data.read ((s.readReg .c).toNat + j) = words[j]?)
    (hack : ∀ j, j < words.length → s.host.ackAnswer (s.host.writeReqs + j) = .ok) :
    exec .syscall s = (writeWords ((s.readReg .c).toNat + words.length) ((s.readReg .d).toNat - words.length)
      (s.sentAll words)).finish := by
  rw [exec, execSyscall_write ha, ← writeWords_accepted _ hread hack, Nat.add_sub_cancel' hlen]

/-! ### The statements -/

/-- Settles O51: every byte finds room, and SP is restored after the last. -/
theorem syscallReadsLine : Obligations.SyscallReadsLine := by
  intro s bytes hs ha hline c m hfits
  have hlen : (bytes.take (s.readReg .d).toNat).length = m := by rw [List.length_take, Nat.min_comm]
  obtain ⟨u, hu, hfilled⟩ := storeBytes_filled (s := s.atBuffer) (State.atBuffer_inv hs)
    (by rw [hlen, State.atBuffer_sp]; exact hfits)
  have hsp := s.atBuffer_sp
  refine ⟨u.writeReg .sp (s.readReg .sp), ?_, fun i hi => ?_, fun a haddr => ?_, fun r => ?_, ?_⟩
  · rw [exec_syscall_line ha hline, hu, Res.bind_ok, Res.finish_ok]
  · rw [State.writeReg_data, ← hfilled.read_toNat hi, hsp]
  · exact hfilled.read_outside (by rw [hlen, hsp]; exact haddr)
  · rw [State.readReg_writeReg]
    split
    next hr => rw [hr]
    next hr => rw [hfilled.frame.regs_kept r (by simpa using hr), s.atBuffer_readReg, if_neg hr]
  · obtain ⟨-, -, -, hmode, hstatus, hprog, hhost⟩ := hfilled.frame
    exact ⟨hmode, hstatus, hprog, hhost⟩

/-- Settles O52: the overflow at byte `i` ends the loop with SP redirected. -/
theorem syscallReadOverflowLeavesBufferPointer : Obligations.SyscallReadOverflowLeavesBufferPointer := by
  intro s bytes i hs ha hline c hi hroom hfull
  obtain ⟨u, hu, hfilled⟩ := storeBytes_overflow (bytes := bytes.take (s.readReg .d).toNat) (s := s.atBuffer) (i := i)
    (State.atBuffer_inv hs) (by rw [List.length_take, Nat.min_comm]; exact hi)
    (by rw [State.atBuffer_sp]; exact hroom) (by rw [State.atBuffer_sp]; exact hfull)
  rw [List.take_take, Nat.min_eq_left (by omega)] at hfilled
  have hlen : (bytes.take i).length = i := List.length_take_of_le (by omega)
  have hsp : (u.readReg .sp).toNat = c + i := by rw [hfilled.sp, hlen, State.atBuffer_sp]
  refine ⟨u.raise (.stackOverflow (u.readReg .sp)), ?_, ?_, hsp, fun r hr => ?_, fun j hj => ?_, fun a haddr => ?_⟩
  · rw [exec_syscall_line ha hline, hu, Res.bind_raised, Res.finish_raised]
  · rw [State.raise_status, ← hsp, BitVec.ofNat_toNat, BitVec.setWidth_eq]
  · rw [State.raise_readReg, hfilled.frame.regs_kept r (by simpa using hr), s.atBuffer_readReg, if_neg hr]
  · rw [State.raise_data, ← hfilled.read_toNat (by omega), State.atBuffer_sp]
  · exact hfilled.read_outside (by rw [hlen, State.atBuffer_sp]; exact haddr)

/-- Settles O53: the loop ends after the words sent. -/
theorem syscallWritesWords : Obligations.SyscallWritesWords := by
  intro s words ha hlen hread hack
  rw [exec_syscall_write ha hlen.le hread hack, ← hlen, Nat.sub_self]
  rfl

/-- Settles O54: the loop goes on behind the words sent, at an address past the memory or a word the host refuses. -/
theorem syscallWriteStopsAtFirstFailure : Obligations.SyscallWriteStopsAtFirstFailure := by
  intro s words ha hlen hread hack
  obtain ⟨n, hn⟩ := Nat.exists_eq_succ_of_ne_zero (Nat.sub_ne_zero_of_lt hlen)
  rw [exec_syscall_write ha hlen.le hread hack, hn]
  refine ⟨fun hend => ?_, fun w hw hfail => ?_⟩
  · rw [writeWords_unreadable (s := s.sentAll words) n hend]
    rfl
  · rw [writeWords_fail (s := s.sentAll words) n hw hfail, Res.finish_raised, ← List.append_assoc]
    rfl

/-- Settles O55: the two failing answers to a line request, and the silence at a word behind those sent. -/
theorem hostFailureAndSilence : Obligations.HostFailureAndSilence := by
  refine fun s => ⟨exec_syscall_line_fails, exec_syscall_line_silent, fun words w ha hlen hread hack hw hsilent => ?_⟩
  obtain ⟨n, hn⟩ := Nat.exists_eq_succ_of_ne_zero (Nat.sub_ne_zero_of_lt hlen)
  rw [exec_syscall_write ha hlen.le hread hack, hn, writeWords_silent (s := s.sentAll words) n hw hsilent, Res.finish_hang]

end Sys2Proof.Machine

/-!
PROOFS. What an instruction may change and which errors it may raise (10_state.md R21; 20_memory.md R45; 60_exceptions.md R210):
first for any predicate on states that the updates of the instruction's row keep, then word by word, then error by error.
-/

namespace Sys2Proof.Machine

/-! ### Predicates that the shared operations keep -/

/-- What holds of the state that finished pseudocode ended in holds of the next state, if raising an error keeps it. -/
theorem Res.All.of_finish {P : State → Prop} {r : Res Unit} {t : State} (hr : r.All P)
    (hraise : ∀ u e, P u → P (u.raise e)) (h : r.finish = .next t) : P t := by
  rcases Res.finish_cases h with rfl | ⟨e, u, rfl, rfl⟩
  · exact hr
  · exact hraise u e hr

section
variable {P : State → Prop} (hsp : ∀ t v, P t → P (t.writeReg .sp v)) (hdata : ∀ t m, P t → P { t with data := m })
  (hhost : ∀ t h, P t → P { t with host := h })

include hsp in
theorem stackPop_keeps {s : State} (hs : P s) : (stackPop s).All P := by
  rcases stackPop_cases s with ⟨-, he⟩ | ⟨-, -, he⟩ | ⟨-, v, -, he⟩ <;> rw [he]
  · exact hs
  · exact hsp _ _ hs
  · exact hsp _ _ hs

include hsp in
theorem popInto_keeps {r : Reg} (hr : ∀ t v, P t → P (t.writeReg r v)) {s : State} (hs : P s) :
    ((stackPop s).bind fun v t => Res.ok () (t.writeReg r v)).All P :=
  (stackPop_keeps hsp hs).bind fun v t ht => hr t v ht

include hsp hdata in
theorem stackPush_keeps {s : State} (hs : P s) (v : Word) : (stackPush v s).All P := by
  rcases stackPush_cases v s with ⟨-, he⟩ | ⟨-, m, -, he⟩ <;> rw [he]
  · exact hs
  · exact hsp _ _ (hdata _ m hs)

include hsp hdata in
theorem stackBinary_keeps (op : Word → Word → Option Word) {s : State} (hs : P s) : (stackBinary op s).All P :=
  (stackPop_keeps hsp hs).bind fun _ _ ht => (stackPop_keeps hsp ht).bind fun _ _ hu => by
    split
    · exact hu
    · exact stackPush_keeps hsp hdata hu _

include hsp hdata in
theorem storeBytes_keeps (bytes : List Byte) {s : State} (hs : P s) : (storeBytes bytes s).All P := by
  induction bytes generalizing s with
  | nil => exact hs
  | cons b rest ih => exact (stackPush_keeps hsp hdata hs _).bind fun _ _ => ih

include hhost in
theorem hostReadLine_keeps {s : State} (hs : P s) : (hostReadLine s).All P := by
  unfold hostReadLine
  split
  · exact hhost _ _ hs
  · exact hhost _ _ hs
  · trivial

include hhost in
theorem hostWrite_keeps {s : State} (hs : P s) (w : Word) : (hostWrite w s).All P := by
  unfold hostWrite
  split
  · exact hhost _ _ hs
  · exact hhost _ _ hs
  · trivial

include hsp hdata hhost in
theorem readLine_keeps (c n : Word) {s : State} (hs : P s) : (readLine c n s).All P :=
  (hostReadLine_keeps hhost hs).bind fun _ _ ht =>
    (storeBytes_keeps hsp hdata _ (hsp _ _ ht)).bind fun _ _ hu => hsp _ _ hu

include hhost in
theorem writeWords_keeps (a n : Nat) {s : State} (hs : P s) : (writeWords a n s).All P := by
  induction n generalizing a s with
  | zero => exact hs
  | succ n ih =>
    unfold writeWords
    split
    · exact hs
    · exact (hostWrite_keeps hhost hs _).bind fun _ _ => ih (a + 1)

end

theorem jumpIf_keeps {P : State → Prop} (hpc : ∀ t v, P t → P (t.writeReg .pc v)) (c : Bool) (k : Nat) {s : State}
    (hs : P s) : P (jumpIf c k s) := by
  cases c with
  | true => exact hpc _ _ hs
  | false => exact hs

/-! ### Predicates that an instruction keeps -/

/-- The four ranges of Syscall's selector (45_syscall.md R180). -/
theorem selector_cases (x : Word) : x.toNat = 0 ∨ x.toNat = 1 ∨ x.toNat = 2 ∨ 2 < x.toNat := by omega

/-- `P` survives every update that `i` may make: of the registers in its row of the table (10_state.md R21), of the data
memory, the mode and the status, and for Syscall of the host. -/
structure KeptBy (i : Instr) (P : State → Prop) : Prop where
  reg : ∀ r ∈ writtenRegs i, ∀ t v, P t → P (t.writeReg r v)
  data : ∀ t m, P t → P { t with data := m }
  mode : ∀ t m, P t → P { t with mode := m }
  status : ∀ t x, P t → P { t with status := x }
  host : i = .syscall → ∀ t h, P t → P { t with host := h }

/-- An instruction makes only the updates of its row, whichever way it ends. -/
theorem exec_next_keeps {P : State → Prop} {i : Instr} {s t : State} (hP : KeptBy i P) (hs : P s)
    (h : exec i s = .next t) : P t := by
  have hraise (u : State) (e : Error) : P u → P (u.raise e) := hP.status u _
  cases i with
  | add | sub | mul | imm | cmp => cases h; exact hP.reg _ (by simp [writtenRegs]) _ _ hs
  | div r1 r2 r3 =>
    rcases exec_div_cases r1 r2 r3 s with ⟨-, he⟩ | ⟨q, he⟩ <;> cases he.symm.trans h
    · exact hraise _ _ hs
    · exact hP.reg _ (by simp [writtenRegs]) _ _ hs
  | push r1 => exact (stackPush_keeps (hP.reg .sp (by simp [writtenRegs])) hP.data hs _).of_finish hraise h
  | pop | ret =>
    exact (popInto_keeps (hP.reg .sp (by simp [writtenRegs])) (hP.reg _ (by simp [writtenRegs])) hs).of_finish hraise h
  | stackAdd | stackSub | stackMul | stackDiv =>
    exact (stackBinary_keeps (hP.reg .sp (by simp [writtenRegs])) hP.data _ hs).of_finish hraise h
  | jmp | je | jne | jg | jge | jl | jle | jz | jnz =>
    cases h
    exact jumpIf_keeps (hP.reg .pc (by simp [writtenRegs])) _ _ hs
  | call k =>
    refine Res.All.of_finish (Res.All.bind ?_ fun _ u hu => ?_) hraise h
    · exact stackPush_keeps (hP.reg .sp (by simp [writtenRegs])) hP.data hs _
    · exact hP.reg .pc (by simp [writtenRegs]) u _ hu
  | fn => cases h; exact hP.mode _ _ hs
  | syscall =>
    rw [exec] at h
    rcases selector_cases (s.readReg .a) with ha | ha | ha | ha
    · rw [execSyscall_exit ha] at h; cases h
      exact hP.status _ _ hs
    · rw [execSyscall_read ha] at h
      exact (readLine_keeps (hP.reg .sp (by simp [writtenRegs])) hP.data (hP.host rfl) _ _ hs).of_finish hraise h
    · rw [execSyscall_write ha] at h
      exact (writeWords_keeps (hP.host rfl) _ _ hs).of_finish hraise h
    · rw [execSyscall_other ha] at h; cases h
      exact hraise _ _ hs

theorem exec_next_readReg {i : Instr} {s t : State} {r : Reg} (h : exec i s = .next t) (hr : r ∉ writtenRegs i) :
    t.readReg r = s.readReg r := by
  refine exec_next_keeps (P := fun u => u.readReg r = s.readReg r)
    ⟨fun q hq u v hu => ?_, fun _ _ => id, fun _ _ => id, fun _ _ => id, fun _ _ _ => id⟩ rfl h
  rw [State.readReg_writeReg, if_neg (ne_of_mem_of_not_mem hq hr).symm, hu]

/-- Only Syscall 1 and 2 reach the host (45_syscall.md R188). -/
theorem exec_next_host {i : Instr} {s t : State} (h : exec i s = .next t)
    (hi : ¬ (i = .syscall ∧ ((s.readReg .a).toNat = 1 ∨ (s.readReg .a).toNat = 2))) : t.host = s.host := by
  by_cases hsys : i = .syscall
  · subst hsys
    rw [exec] at h
    rcases selector_cases (s.readReg .a) with ha | ha | ha | ha
    · rw [execSyscall_exit ha] at h; cases h; rfl
    · exact absurd ⟨rfl, .inl ha⟩ hi
    · exact absurd ⟨rfl, .inr ha⟩ hi
    · rw [execSyscall_other ha] at h; cases h; rfl
  · exact exec_next_keeps (P := fun u => u.host = s.host)
      ⟨fun _ _ _ _ => id, fun _ _ => id, fun _ _ => id, fun _ _ => id, fun hi => absurd hi hsys⟩ rfl h

/-- Over a step the fetch moves PC, and an executed instruction the registers of its row. -/
theorem stepWith_next_readReg {tag : TagMap} {s t : State} {r : Reg} (h : stepWith tag s = .next t) (hr : r ≠ .pc)
    (hne : t.readReg r ≠ s.readReg r) : s.mode = .running ∧ ∃ i, s.decodesTo tag i ∧ r ∈ writtenRegs i := by
  rcases stepWith_next_cases h with ⟨-, e, rfl | rfl⟩ | ⟨i, -, -, rfl⟩ | ⟨i, hi, hm, hx⟩
  · exact absurd rfl hne
  · exact absurd (by simp [hr]) hne
  · exact absurd (by simp [hr]) hne
  · refine ⟨hm, i, hi, ?_⟩
    by_contra hnot
    exact hne (by rw [exec_next_readReg hx hnot, State.advancePc_readReg, if_neg hr])

/-! ### The words an instruction may store to (20_memory.md R45) -/

/-- The word at `a` reads in `t` as in `s`. -/
def SameWord (a : Nat) (s t : State) : Prop := t.data.read a = s.data.read a

theorem stackPush_sameWord {s : State} {a : Nat} (hs : s.Inv) (v : Word) (ha : a ≠ (s.readReg .sp).toNat) :
    (stackPush v s).All (SameWord a s) := by
  rcases Nat.lt_or_ge ((s.readReg .sp).toNat + 1) s.data.capacity with hroom | hfull
  · obtain ⟨t, ht, hpushed⟩ := stackPush_pushed hs v hroom
    rw [ht]
    exact hpushed.frame.words_kept a (by simpa using ha)
  · rw [stackPush_overflow hfull]
    exact rfl

theorem stackBinary_sameWord {s : State} {a : Nat} (hs : s.Inv) (op : Word → Word → Option Word)
    (ha : ¬ a + 2 = (s.readReg .sp).toNat) : (stackBinary op s).All (SameWord a s) := by
  rcases stackBinary_cases op s with ⟨e, x, he, -⟩ | ⟨h, x, y, hx, hy⟩
  · rw [he]
    exact rfl
  · rw [stackBinary_two_words op h hx hy]
    split
    · exact rfl
    · refine (stackPush_sameWord (s := s.writeReg .sp (s.readReg .sp - 2)) (State.inv_congr rfl rfl hs) _ ?_).mono
        fun _ hu => hu
      rw [State.readReg_writeReg, if_pos rfl, toNat_sub_two h]
      omega

theorem storeBytes_sameWord {bytes : List Byte} {s : State} {a : Nat} (hs : s.Inv)
    (ha : a < (s.readReg .sp).toNat ∨ (s.readReg .sp).toNat + bytes.length ≤ a) :
    (storeBytes bytes s).All (SameWord a s) := by
  induction bytes generalizing s with
  | nil => exact rfl
  | cons b rest ih =>
    rw [List.length_cons] at ha
    rw [storeBytes]
    rcases Nat.lt_or_ge ((s.readReg .sp).toNat + 1) s.data.capacity with hroom | hfull
    · obtain ⟨t, ht, hpushed⟩ := stackPush_pushed hs (byteWord b) hroom
      have hsp := hpushed.sp
      have hfirst : SameWord a s t := hpushed.frame.words_kept a (by simp; omega)
      rw [ht, Res.bind_ok]
      exact (ih hpushed.inv (by omega)).mono fun u hu => Eq.trans hu hfirst
    · rw [stackPush_overflow hfull]
      exact rfl

/-- Syscall 1 stores to its buffer only. -/
theorem exec_syscall_read_sameWord {s t : State} {a : Nat} (hs : s.Inv) (hsel : (s.readReg .a).toNat = 1)
    (h : exec .syscall s = .next t)
    (ha : ¬ ((s.readReg .c).toNat ≤ a ∧ a < (s.readReg .c).toNat + (s.readReg .d).toNat)) : SameWord a s t := by
  cases hline : s.nextLine with
  | line bytes =>
    rw [exec_syscall_line hsel hline] at h
    refine Res.All.of_finish ?_ (fun _ _ hu => hu) h
    refine Res.All.bind ?_ fun _ _ hu => hu
    refine storeBytes_sameWord (s := s.atBuffer) (State.atBuffer_inv hs) ?_
    rw [State.atBuffer_sp, List.length_take]
    omega
  | fail => rw [exec_syscall_line_fails hsel hline] at h; cases h; exact rfl
  | silent => rw [exec_syscall_line_silent hsel hline] at h; cases h

theorem exec_next_sameWord {i : Instr} {s t : State} {a : Nat} (hs : s.Inv) (h : exec i s = .next t)
    (ha : ¬ mayStore i s a) : SameWord a s t := by
  have hraise (u : State) (e : Error) : SameWord a s u → SameWord a s (u.raise e) := id
  cases i with
  | add | sub | mul | imm | cmp | fn => cases h; exact rfl
  | div r1 r2 r3 =>
    rcases exec_div_cases r1 r2 r3 s with ⟨-, he⟩ | ⟨q, he⟩ <;> cases he.symm.trans h <;> exact rfl
  | push r1 => exact (stackPush_sameWord hs _ ha).of_finish hraise h
  | pop | ret =>
    exact (popInto_keeps (P := SameWord a s) (fun _ _ hu => hu) (fun _ _ hu => hu) rfl).of_finish hraise h
  | stackAdd | stackSub | stackMul | stackDiv => exact (stackBinary_sameWord hs _ ha).of_finish hraise h
  | jmp | je | jne | jg | jge | jl | jle | jz | jnz => cases h; exact (jumpIf_frame _ _ s).words_kept a (by simp)
  | call k =>
    refine Res.All.of_finish ?_ hraise h
    exact (stackPush_sameWord hs _ ha).bind fun _ _ hu => hu
  | syscall =>
    rcases selector_cases (s.readReg .a) with hsel | hsel | hsel | hsel
    · rw [exec, execSyscall_exit hsel] at h; cases h; exact rfl
    · exact exec_syscall_read_sameWord hs hsel h fun hin => ha ⟨hsel, hin⟩
    · rw [exec, execSyscall_write hsel] at h
      exact (writeWords_keeps (P := SameWord a s) (fun _ _ hu => hu) _ _ rfl).of_finish hraise h
    · rw [exec, execSyscall_other hsel] at h; cases h; exact rfl

/-! ### Instructions that always answer (40_step.md section 2) -/

/-- The pseudocode does not wait for the host. -/
def Res.Answers {α : Type} : Res α → Prop
  | .ok _ _ | .raised _ _ => True
  | .hang => False

theorem Res.Answers.bind {α β : Type} {r : Res α} {f : α → State → Res β} (h : r.Answers)
    (hf : ∀ v t, (f v t).Answers) : (r.bind f).Answers := by
  cases r with
  | ok v t => exact hf v t
  | raised e t => trivial
  | hang => exact h

theorem Res.Answers.finish {r : Res Unit} (h : r.Answers) : ∃ t, r.finish = .next t := by
  cases r with
  | ok v t => exact ⟨t, rfl⟩
  | raised e t => exact ⟨t.raise e, rfl⟩
  | hang => exact h.elim

theorem stackPush_answers (v : Word) (s : State) : (stackPush v s).Answers := by
  rcases stackPush_cases v s with ⟨-, he⟩ | ⟨-, m, -, he⟩ <;> rw [he] <;> trivial

theorem stackPop_answers (s : State) : (stackPop s).Answers := by
  rcases stackPop_cases s with ⟨-, he⟩ | ⟨-, -, he⟩ | ⟨-, v, -, he⟩ <;> rw [he] <;> trivial

theorem stackBinary_answers (op : Word → Word → Option Word) (s : State) : (stackBinary op s).Answers :=
  (stackPop_answers s).bind fun _ t => (stackPop_answers t).bind fun _ u => by
    split
    · trivial
    · exact stackPush_answers _ u

/-- Only Syscall 1 and 2 may wait for ever. -/
theorem exec_answers {i : Instr} {s : State}
    (hi : ¬ (i = .syscall ∧ ((s.readReg .a).toNat = 1 ∨ (s.readReg .a).toNat = 2))) : ∃ t, exec i s = .next t := by
  cases i with
  | add | sub | mul | imm | cmp | jmp | je | jne | jg | jge | jl | jle | jz | jnz | fn => exact ⟨_, rfl⟩
  | div r1 r2 r3 =>
    rcases exec_div_cases r1 r2 r3 s with ⟨-, he⟩ | ⟨q, he⟩ <;> exact ⟨_, he⟩
  | push r1 => exact (stackPush_answers _ s).finish
  | pop | ret => exact Res.Answers.finish ((stackPop_answers s).bind fun _ _ => trivial)
  | stackAdd | stackSub | stackMul | stackDiv => exact (stackBinary_answers _ s).finish
  | call k => exact Res.Answers.finish ((stackPush_answers _ s).bind fun _ _ => trivial)
  | syscall =>
    rcases selector_cases (s.readReg .a) with ha | ha | ha | ha
    · exact ⟨_, execSyscall_exit ha⟩
    · exact absurd ⟨rfl, .inl ha⟩ hi
    · exact absurd ⟨rfl, .inr ha⟩ hi
    · exact ⟨_, execSyscall_other ha⟩

theorem exec_next_or_silent (i : Instr) (s : State) :
    (∃ t, exec i s = .next t) ∨
    (exec i s = .fault .hostSilent ∧ i = .syscall ∧ ((s.readReg .a).toNat = 1 ∨ (s.readReg .a).toNat = 2)) := by
  by_cases hi : i = .syscall ∧ ((s.readReg .a).toNat = 1 ∨ (s.readReg .a).toNat = 2)
  · cases h : exec i s with
    | next t => exact .inl ⟨t, rfl⟩
    | fault f => exact .inr ⟨rfl, hi⟩
    | refused x => exact absurd h (exec_ne_refused i s x)
  · exact .inl (exec_answers hi)

/-! ### The errors of each instruction (60_exceptions.md R210) -/

/-- The summary's row of an error kind: whether `i`, executed in `s`, may raise it. -/
def Error.RaisedBy (i : Instr) (s : State) : Error → Prop
  | .noNextInstruction _ | .memoryWrite _ | .unknownOpcode _ => False
  | .stackOverflow _ => (∃ r, i = .push r) ∨ (∃ k, i = .call k) ∨ (i = .syscall ∧ (s.readReg .a).toNat = 1)
  | .stackUnderflow _ => (∃ r, i = .pop r) ∨ i = .ret ∨ i ∈ stackArithmetic
  | .memoryRead _ =>
    (∃ r, i = .pop r) ∨ i = .ret ∨ i ∈ stackArithmetic ∨ (i = .syscall ∧ (s.readReg .a).toNat = 2)
  | .hostIo => i = .syscall ∧ ((s.readReg .a).toNat = 1 ∨ (s.readReg .a).toNat = 2)
  | .divisionByZero n =>
    n = s.readReg .pc - 1 ∧ ((∃ r1 r2 r3, i = .div r1 r2 r3 ∧ s.readReg r2 = 0) ∨ i = .stackDiv)
  | .unimplementedSyscall x => i = .syscall ∧ x = s.readReg .a ∧ 2 < (s.readReg .a).toNat

/-- The stack arithmetic stores where it has just read, so its push has room: it fails at a pop or at its operation. -/
theorem stackBinary_raises_without_overflow {P : Error → Prop} {op : Word → Word → Option Word} {s : State}
    (hunder : ∀ x, P (.stackUnderflow x)) (hread : ∀ n, P (.memoryRead n))
    (hzero : ∀ a b, op b a = none → P (.divisionByZero (s.readReg .pc - 1))) : (stackBinary op s).Raises P := by
  rcases stackBinary_cases op s with ⟨e, x, he, ⟨y, rfl⟩ | ⟨n, rfl⟩⟩ | ⟨h, a, b, ha, hb⟩
  · rw [he]; exact hunder y
  · rw [he]; exact hread n
  · rw [stackBinary_two_words op h ha hb]
    cases hop : op b a with
    | none => exact hzero a b hop
    | some v =>
      have hcap := Memory.lt_capacity_of_read ha
      have hsp : ((s.writeReg .sp (s.readReg .sp - 2)).readReg .sp).toNat = (s.readReg .sp).toNat - 2 := by
        rw [State.readReg_writeReg, if_pos rfl, toNat_sub_two h]
      obtain ⟨m, -, hpush⟩ := stackPush_ok (s := s.writeReg .sp (s.readReg .sp - 2)) v
        (by rw [hsp, State.writeReg_data]; omega)
      simp only [hpush, Res.Raises]

/-- Stack arithmetic raises at its pops, and only StackDiv has an operation that fails. -/
theorem stackArithmetic_raises {i : Instr} (hi : i ∈ stackArithmetic) {op : Word → Word → Option Word} {s : State}
    (hop : ∀ a b, op b a = none → i = .stackDiv) : (stackBinary op s).Raises (Error.RaisedBy i s) :=
  stackBinary_raises_without_overflow (fun _ => .inr (.inr hi)) (fun _ => .inr (.inr (.inl hi)))
    fun a b h => ⟨rfl, .inr (hop a b h)⟩

theorem exec_next_raisedBy {i : Instr} {s t : State} {e : Error} (hl : s.status = .live) (h : exec i s = .next t)
    (he : t.status = .faulted e) : Error.RaisedBy i s e := by
  have unchanged : t.status = s.status → Error.RaisedBy i s e := fun hs => by cases he.symm.trans (hs.trans hl)
  cases i with
  | add | sub | mul | imm | cmp | fn => cases h; exact unchanged rfl
  | jmp | je | jne | jg | jge | jl | jle | jz | jnz => cases h; exact unchanged (jumpIf_kept _ _ s).status
  | div r1 r2 r3 =>
    rcases exec_div_cases r1 r2 r3 s with ⟨hzero, hx⟩ | ⟨q, hx⟩ <;> cases hx.symm.trans h
    · cases he
      exact ⟨rfl, .inl ⟨r1, r2, r3, rfl, hzero⟩⟩
    · exact unchanged rfl
  | push r1 =>
    exact (stackPush_raises (fun _ => .inl ⟨r1, rfl⟩) _ s).of_finish (stackPush_kept (Kept.rfl' s) _) hl h he
  | pop r1 =>
    exact (popInto_raises (fun _ => .inl ⟨r1, rfl⟩) (fun _ => .inl ⟨r1, rfl⟩) _ s).of_finish (popInto_kept _ s) hl h he
  | ret =>
    exact (popInto_raises (fun _ => .inr (.inl rfl)) (fun _ => .inr (.inl rfl)) _ s).of_finish (popInto_kept _ s) hl h he
  | stackAdd | stackSub | stackMul =>
    exact (stackArithmetic_raises (by simp) (fun _ _ hop => by cases hop)).of_finish (stackBinary_kept _ s) hl h he
  | stackDiv =>
    exact (stackArithmetic_raises (by simp) (fun _ _ _ => rfl)).of_finish (stackBinary_kept _ s) hl h he
  | call k => exact (call_raises (fun _ => .inr (.inl ⟨k, rfl⟩)) _ k s).of_finish (call_kept _ k s) hl h he
  | syscall =>
    rw [exec] at h
    rcases selector_cases (s.readReg .a) with ha | ha | ha | ha
    · rw [execSyscall_exit ha] at h; cases h; cases he
    · rw [execSyscall_read ha] at h
      exact (readLine_raises (fun _ => .inr (.inr ⟨rfl, ha⟩)) ⟨rfl, .inl ha⟩ _ _ s).of_finish (readLine_kept _ _ s) hl h he
    · rw [execSyscall_write ha] at h
      exact (writeWords_raises (fun _ => .inr (.inr (.inr ⟨rfl, ha⟩))) ⟨rfl, .inr ha⟩ _ _ s).of_finish
        (writeWords_kept (Kept.rfl' s) _ _) hl h he
    · rw [execSyscall_other ha] at h
      cases h; cases he
      exact ⟨rfl, rfl, ha⟩

/-! ### The statements -/

/-- Settles O22: the value of a register outside the row is a predicate that the row's updates keep. -/
theorem registersChangeOnlyAsTabled : Obligations.RegistersChangeOnlyAsTabled :=
  fun _ _ _ _ => exec_next_readReg

/-- Settles O23: of the ways of a step, only execution writes a register other than PC. -/
theorem stepChangesRegistersOnlyByWriter : Obligations.StepChangesRegistersOnlyByWriter :=
  fun _ _ _ _ h hr hne => ⟨stepWith_next_live h, stepWith_next_readReg h hr hne⟩

/-- Settles O24: pushes store at SP, and the loop of Syscall 1 from C up. -/
theorem dataWordsChangeOnlyAsTabled : Obligations.DataWordsChangeOnlyAsTabled :=
  fun _ _ _ _ => exec_next_sameWord

/-- Settles O25: what exec_next says of every instruction, and the host's part. -/
theorem modeStatusAndHostFrame : Obligations.ModeStatusAndHostFrame := by
  intro i s t h
  obtain ⟨hstored, hmode, hstatus⟩ := exec_next h
  exact ⟨hstored.prog, hstored.capacity, hmode, exec_next_host h, hstatus⟩

/-- Settles O26: every way of a Live step but execution answers at once, and execution answers or waits for the host. -/
theorem liveStepAlwaysAnswers : Obligations.LiveStepAlwaysAnswers := by
  intro tag s hl
  rcases stepWith_cases (tag := tag) (s := s) rfl with ⟨hdead, -⟩ | ⟨-, -, ho⟩ |
    ⟨-, w, hw, ⟨x, -, ho⟩ | ⟨i, -, -, ho⟩ | ⟨i, hi, hm, ho⟩⟩
  · exact absurd hl hdead
  · exact .inl ⟨_, ho⟩
  · exact .inl ⟨_, ho⟩
  · exact .inl ⟨_, ho⟩
  · rw [ho]
    rcases exec_next_or_silent i s.advancePc with hnext | ⟨hsilent, rfl, ha⟩
    · exact .inl hnext
    · exact .inr ⟨hsilent, hm, ⟨w, hw, hi⟩, by simpa using ha⟩

/-- Settles O27: what each instruction's operations can raise, in the row of each kind. -/
theorem errorsRaisedOnlyAsListed : Obligations.ErrorsRaisedOnlyAsListed := by
  intro i s t e hl h he
  have hlisted := exec_next_raisedBy hl h he
  cases e <;> exact hlisted

end Sys2Proof.Machine

/-!
PROOFS. Function bodies (44_call_fn.md section 2): in SkippingBody each step over a word that is no Ret moves PC and nothing
else, so by induction on the body's length the run ends past the Ret, in Running again.
-/

namespace Sys2Proof.Machine

/-- The word at index `a` of the instruction store decodes to `i`. -/
def State.decodesAt (tag : TagMap) (s : State) (a : Nat) (i : Instr) : Prop :=
  ∃ w, s.prog[a]? = some w ∧ decodeWith tag w = .op i

theorem State.decodesAt_lt {tag : TagMap} {s : State} {a : Nat} {i : Instr} (h : s.decodesAt tag a i) : a < s.prog.length := by
  obtain ⟨w, hw, -⟩ := h
  exact (List.getElem?_eq_some_iff.mp hw).1

/-- PC does not wrap where another word follows. -/
theorem State.advancePc_pc_toNat {tag : TagMap} {s : State} {a : Nat} {i : Instr} (hs : s.Inv) (h : s.decodesAt tag a i)
    (ha : (s.readReg .pc).toNat + 1 ≤ a) : (s.advancePc.readReg .pc).toNat = (s.readReg .pc).toNat + 1 := by
  obtain ⟨-, -, hprog⟩ := hs
  have hlt : (s.readReg .pc).toNat + 1 < 2 ^ 32 := (ha.trans_lt (State.decodesAt_lt h)).trans_le hprog
  rw [State.advancePc_readReg, if_pos rfl, toNat_wrap32_succ, Nat.mod_eq_of_lt hlt]

theorem add_ofNat_succ (x : Word) (n : Nat) : x + 1 + BitVec.ofNat 32 n = x + BitVec.ofNat 32 (n + 1) := by
  rw [BitVec.add_assoc, Nat.add_comm n 1, BitVec.ofNat_add]
  rfl

/-- Moving PC by one and then by `n`. -/
theorem State.advancePc_writeReg_pc (s : State) (n : Nat) :
    s.advancePc.writeReg .pc (s.advancePc.readReg .pc + BitVec.ofNat 32 n) =
      s.writeReg .pc (s.readReg .pc + BitVec.ofNat 32 (n + 1)) := by
  rw [State.advancePc_eq_writeReg, State.writeReg_writeReg, State.readReg_writeReg, if_pos rfl, add_ofNat_succ]

theorem State.skip_ret_of_running {s : State} (h : s.mode = .running) : s.skip .ret = s := by
  rw [State.skip_ret, ← h]

/-- The rest of a body: `n` words that are no Ret, skipped one by one, and the Ret that ends the skipping. -/
theorem runStepsWith_skips_body {tag : TagMap} {s : State} {n : Nat} (hs : s.Inv) (hl : s.status = .live)
    (hm : s.mode = .skippingBody)
    (hbody : ∀ j, j < n → ∃ i, s.decodesAt tag ((s.readReg .pc).toNat + j) i ∧ i ≠ .ret)
    (hret : s.decodesAt tag ((s.readReg .pc).toNat + n) .ret) :
    runStepsWith tag (n + 1) s = .next ((s.writeReg .pc (s.readReg .pc + BitVec.ofNat 32 (n + 1))).skip .ret) := by
  induction n generalizing s with
  | zero =>
    rw [runStepsWith_succ 0 (stepWith_of_skippingBody hl hret hm), State.advancePc_eq_writeReg]
    rfl
  | succ n ih =>
    obtain ⟨i, hi, hne⟩ := hbody 0 (Nat.succ_pos n)
    have hstep := stepWith_of_skippingBody hl hi hm
    rw [State.skip_of_ne_ret hne] at hstep
    have hpc := State.advancePc_pc_toNat hs hret (by omega)
    rw [runStepsWith_succ (n + 1) hstep, ih (s := s.advancePc) (State.inv_congr rfl rfl hs) hl hm,
      State.advancePc_writeReg_pc]
    · intro j hj
      rw [hpc, Nat.add_right_comm, Nat.add_assoc]
      exact hbody (j + 1) (Nat.succ_lt_succ hj)
    · rw [hpc, Nat.add_right_comm, Nat.add_assoc]
      exact hret

/-- The state after an Fn at PC was fetched and executed. -/
def State.enterBody (s : State) : State := { s.advancePc with mode := .skippingBody }

theorem stepWith_of_fn {tag : TagMap} {s : State} (hl : s.status = .live) (hm : s.mode = .running)
    (h : s.decodesTo tag .fn) : stepWith tag s = .next s.enterBody :=
  stepWith_of_running hl h hm

/-- Entering a body and leaving it by its Ret moves PC only. -/
theorem State.enterBody_leave {s : State} (hm : s.mode = .running) (n : Nat) :
    (s.enterBody.writeReg .pc (s.enterBody.readReg .pc + BitVec.ofNat 32 n)).skip .ret =
      s.writeReg .pc (s.readReg .pc + BitVec.ofNat 32 (n + 1)) := by
  calc (s.enterBody.writeReg .pc (s.enterBody.readReg .pc + BitVec.ofNat 32 n)).skip .ret
      = (s.advancePc.writeReg .pc (s.advancePc.readReg .pc + BitVec.ofNat 32 n)).skip .ret := rfl
    _ = s.advancePc.writeReg .pc (s.advancePc.readReg .pc + BitVec.ofNat 32 n) := State.skip_ret_of_running hm
    _ = s.writeReg .pc (s.readReg .pc + BitVec.ofNat 32 (n + 1)) := s.advancePc_writeReg_pc n

/-! ### The statements -/

/-- Settles O47: the arm of Fn. -/
theorem fnStartsSkipping : Obligations.FnStartsSkipping := fun _ => rfl

/-- Settles O48: one executed Fn, and the skipped rest of the body. -/
theorem functionBodyIsInertUnderFallThrough : Obligations.FunctionBodyIsInertUnderFallThrough := by
  intro tag s n hs hl hm hfn hbody hret
  have hpc : (s.enterBody.readReg .pc).toNat = (s.readReg .pc).toNat + 1 := State.advancePc_pc_toNat hs hret (by omega)
  have hskipped (j : Nat) (hj : j < n) :
      ∃ i, s.enterBody.decodesAt tag ((s.enterBody.readReg .pc).toNat + j) i ∧ i ≠ .ret := by
    obtain ⟨w, i, hw, hi, hne⟩ := hbody (j + 1) (Nat.succ_pos j) hj
    rw [hpc, Nat.add_right_comm, Nat.add_assoc]
    exact ⟨i, ⟨w, hw, hi⟩, hne⟩
  have hlast : s.enterBody.decodesAt tag ((s.enterBody.readReg .pc).toNat + n) .ret := by
    rw [hpc, Nat.add_right_comm]
    exact hret
  rw [runStepsWith_succ (n + 1) (stepWith_of_fn hl hm hfn),
    runStepsWith_skips_body (s := s.enterBody) (State.inv_congr rfl rfl hs) hl rfl hskipped hlast, State.enterBody_leave hm]

end Sys2Proof.Machine
